-- ==== Sys2Proof/Word.lean ====
section
/-! DEFINITION. The two word types of CORE (00_scope.md R12): a byte is 8 bits, a word is 32 bits, bit 0 is the least
significant bit, and every value is unsigned. -/
namespace Sys2Proof

/-- A byte: 8 bits (R12). -/
abbrev Byte := BitVec 8

/-- A word: 32 bits (R12). It is the width of a command word, of a tick value (`TICKW`, R10), of `ACC` and of `rsp_value`. -/
abbrev Word := BitVec 32

end Sys2Proof
end

