-- ==== Sys2Proof/Syntax.lean ====
section
/-! DEFINITION. The seven commands of CORE (30_encoding.md R60 to R62), one constructor for each row of
opcode_table.json, and the command errors that decoding and range checks raise (60_exceptions.md R182). -/
namespace Sys2Proof

/-- A command. An index, an address and a length are unsigned numbers taken from field `A`; a data byte is field `B`
(R61). -/
inductive Instr where
  /-- CKINIT: start a new checksum (R84). -/
  | ckinit
  /-- CKBYTE b: fold one byte into the checksum (R85). -/
  | ckbyte (b : Byte)
  /-- CKRD: return the checksum of the bytes folded in so far (R86). -/
  | ckrd
  /-- TDUE t: check timer `t` (R101). -/
  | tdue (t : Nat)
  /-- BUFWR a, b: store byte `b` at buffer address `a` (R121). -/
  | bufwr (a : Nat) (b : Byte)
  /-- BUFRD a: read the byte at buffer address `a` (R122). -/
  | bufrd (a : Nat)
  /-- FRAME n: checksum and emit the application payload of length `n` (R135). -/
  | frame (n : Nat)
deriving DecidableEq, Repr

/-- The command errors (R182). The status codes 6 to 15 are never produced, so no constructor stands for them. -/
inductive CmdError where
  /-- Raised by decoding: the opcode is none of `0x01` to `0x07` (R65). -/
  | illegalOpcode
  /-- Raised by decoding: a must-be-zero field is not zero (R66). -/
  | reservedField
  /-- Raised by TDUE: the index is not below `NTIMERS` (R101). -/
  | badTimer
  /-- Raised by BUFWR and BUFRD: the address is not below `BUFSIZE` (R121, R122). -/
  | badAddress
  /-- Raised by FRAME: the length is above `MAXLEN` (R135). -/
  | badLength
deriving DecidableEq, Repr

end Sys2Proof
end

