-- ==== Sys2Proof/WellFormed.lean ====
section
/-! DEFINITION. When a command can be written as a command word: its operand fits field `A` (30_encoding.md R61, R68). A
range check against the build (`NTIMERS`, `BUFSIZE`, `MAXLEN`) is made when the command runs, not here (R64 step 3). -/
namespace Sys2Proof

/-- The number fits the 16-bit field `A`, range 0 to 65535 (R60, R61). -/
def fitsFieldA (x : Nat) : Bool := decide (x < 65536)

/-- The operands fit their fields (R68: "`0 <= t, a, n <= 65535`"); a byte always fits field `B`. -/
def Instr.wellFormed : Instr → Bool
  | .ckinit => true
  | .ckbyte _ => true
  | .ckrd => true
  | .tdue t => fitsFieldA t
  | .bufwr a _ => fitsFieldA a
  | .bufrd a => fitsFieldA a
  | .frame n => fitsFieldA n

/-- A well-formed command. -/
abbrev Instr.WellFormed (i : Instr) : Prop := i.wellFormed = true

end Sys2Proof
end

