-- ==== Sys2Proof/Decode.lean ====
section
/-! DEFINITION. Decoding a command word and encoding a command (30_encoding.md R60 to R68). A command word is a value on
the `cmd` port and is never stored (R60), so the decoder takes the word itself. It is total on all `2^32` words and
rejects by name, in the order of R64: the opcode, then the must-be-zero fields. -/
namespace Sys2Proof

/-- Field `op`, `cmd[31:24]` (R60). -/
def opField (w : Word) : BitVec 8 := w.extractLsb' 24 8

/-- Field `A`, `cmd[23:8]`, as an unsigned number (R60, R61). -/
def aField (w : Word) : Nat := (w.extractLsb' 8 16).toNat

/-- Field `B`, `cmd[7:0]` (R60). -/
def bField (w : Word) : Byte := w.extractLsb' 0 8

/-- The command `i`, if the row's must-be-zero fields are zero (R66). -/
def ifReservedZero (ok : Bool) (i : Instr) : Except CmdError Instr :=
  if ok then .ok i else .error .reservedField

/-- The command a word stands for, or the error it raises (R62, R64 steps 1 and 2, R65, R66). -/
def decode (w : Word) : Except CmdError Instr :=
  match (opField w).toNat with
  | 0x01 => ifReservedZero (aField w == 0 && bField w == 0#8) .ckinit
  | 0x02 => ifReservedZero (aField w == 0) (.ckbyte (bField w))
  | 0x03 => ifReservedZero (aField w == 0 && bField w == 0#8) .ckrd
  | 0x04 => ifReservedZero (bField w == 0#8) (.tdue (aField w))
  | 0x05 => .ok (.bufwr (aField w) (bField w))
  | 0x06 => ifReservedZero (bField w == 0#8) (.bufrd (aField w))
  | 0x07 => ifReservedZero (bField w == 0#8) (.frame (aField w))
  | _ => .error .illegalOpcode

/-- The word with opcode `op` and fields `a` and `b` (format C, R60). -/
def commandWord (op : BitVec 8) (a : Nat) (b : Byte) : Word :=
  (op.setWidth 32 <<< 24) ||| ((BitVec.ofNat 16 a).setWidth 32 <<< 8) ||| b.setWidth 32

/-- The word of a command (R68). -/
def encode : Instr → Word
  | .ckinit => commandWord 0x01#8 0 0#8
  | .ckbyte b => commandWord 0x02#8 0 b
  | .ckrd => commandWord 0x03#8 0 0#8
  | .tdue t => commandWord 0x04#8 t 0#8
  | .bufwr a b => commandWord 0x05#8 a b
  | .bufrd a => commandWord 0x06#8 a 0#8
  | .frame n => commandWord 0x07#8 n 0#8

/-- The `match` column of R62 for a command's row. -/
def matchBits : Instr → Word
  | .ckinit => 0x01000000#32
  | .ckbyte _ => 0x02000000#32
  | .ckrd => 0x03000000#32
  | .tdue _ => 0x04000000#32
  | .bufwr _ _ => 0x05000000#32
  | .bufrd _ => 0x06000000#32
  | .frame _ => 0x07000000#32

/-- The `mask` column of R62 for a command's row. -/
def maskBits : Instr → Word
  | .ckinit => 0xFFFFFFFF#32
  | .ckbyte _ => 0xFFFFFF00#32
  | .ckrd => 0xFFFFFFFF#32
  | .tdue _ => 0xFF0000FF#32
  | .bufwr _ _ => 0xFF000000#32
  | .bufrd _ => 0xFF0000FF#32
  | .frame _ => 0xFF0000FF#32

/-- The command word whose bits, numbered as opcode_table.json numbers them, are `w`, the bits from `nbits` up being 0.
The table numbers a command's one word as R60 does. -/
def tableWord (nbits w : Nat) : Word := BitVec.ofNat 32 (w % 2 ^ nbits)

/-- The command the decoder reads from the word whose bits are `w`. A row wider than a command word names no command. -/
def decodeTableWord (nbits w : Nat) : Option Instr :=
  if nbits ≤ 32 then
    match decode (tableWord nbits w) with
    | .ok i => some i
    | .error _ => none
  else none

end Sys2Proof
end

