-- ==== Sys2Proof/Config.lean ====
section
/-! DEFINITION. The implementation parameters of CORE (00_scope.md R10): the OPEN ones as plain data, so that a state can
carry the build it belongs to and every statement holds for every build, and their default values. -/
namespace Sys2Proof

/-- `HEX_CASE` (R10, R132): the case of the hex digits A to F. -/
inductive HexCase where
  | upper
  | lower
deriving DecidableEq, Repr

/-- The order in which a checksum algorithm takes the bits of a byte. R81 takes the least significant bit first. -/
inductive BitOrder where
  | lsbFirst
  | msbFirst
deriving DecidableEq, Repr

/-- The step function of a checksum, `crc_step`, as plain data. -/
inductive CrcStepRule where
  /-- Eight rounds of shift and conditional xor with a polynomial, as in R81 (`lsbFirst`), or mirrored. The polynomial is
  bit-reversed for `lsbFirst`, in normal form for `msbFirst`. -/
  | bitSerial (poly : Word) (order : BitOrder)
  /-- Any function at all, written out: the value for each accumulator and byte; a pair with no row gives 0. -/
  | table (rows : List ((Word × Byte) × Word))
deriving DecidableEq, Repr

/-- The final function of a checksum, from the accumulator to the checksum, as plain data. -/
inductive CrcFinalRule where
  /-- The xor with a constant, as in R83. -/
  | xor (v : Word)
  /-- Any function at all, written out: the value for each accumulator; an accumulator with no row gives 0. -/
  | table (rows : List (Word × Word))
deriving DecidableEq, Repr

/-- `CRC_ALG` (R10, R80), the function from byte lists to 32 bits, in the form the 32-bit `ACC` of R28 and the stream law
R87 give it: any start value, any step function, any final function.
DESIGN CHOICE (log entry 2): the spec writes these three out for the default algorithm only, so what another build's are,
and where the commands and reset use them, is the model's choice. -/
structure CrcAlg where
  /-- The value the accumulator starts from: `0xFFFFFFFF` in the default. -/
  init  : Word
  /-- What folding in one byte does. -/
  step  : CrcStepRule
  /-- What the accumulator becomes at the end. -/
  final : CrcFinalRule
deriving DecidableEq, Repr

/-- The default of `CRC_ALG`, CRC-32/ISO-HDLC (R80 to R83). -/
def CrcAlg.isoHdlc : CrcAlg :=
  { init := 0xFFFFFFFF#32, step := .bitSerial 0xEDB88320#32 .lsbFirst, final := .xor 0xFFFFFFFF#32 }

/-- `PREFIXLEN` (R10, R141): the bytes reserved at the head of the buffer for the checksum, a constant of the wire
contract. -/
def prefixLen : Nat := 4

/-- The OPEN parameters of R10. They are fixed before reset and no step changes them. -/
structure Params where
  /-- `INTERVAL[t]` for `t` from 0 to `NTIMERS - 1`, in order; its length is `NTIMERS`. -/
  intervals : List Word
  /-- `MAXLEN`: the largest application length FRAME takes. -/
  maxLen    : Nat
  /-- `LINE_TERM`: the byte sequence after the closing delimiter. -/
  lineTerm  : List Byte
  /-- `HEX_CASE`. -/
  hexCase   : HexCase
  /-- `CRC_ALG`. -/
  crc       : CrcAlg
deriving DecidableEq, Repr

/-- `NTIMERS` (R10). -/
def Params.nTimers (P : Params) : Nat := P.intervals.length

/-- `BUFSIZE = MAXLEN + 4` (R10, R29). -/
def Params.bufSize (P : Params) : Nat := P.maxLen + prefixLen

/-- The byte is the ASCII code of a hex digit of either case (R131). -/
abbrev IsHexDigitByte (b : Byte) : Prop :=
  (0x30 ≤ b.toNat ∧ b.toNat ≤ 0x39) ∨ (0x41 ≤ b.toNat ∧ b.toNat ≤ 0x46) ∨ (0x61 ≤ b.toNat ∧ b.toNat ≤ 0x66)

/-- What R10 asks of the parameters: `NTIMERS >= 1`, `5 <= MAXLEN <= 65531`, and a `LINE_TERM` that is non-empty and
holds no brace and no hex digit. -/
abbrev Params.Ok (P : Params) : Prop :=
  1 ≤ P.nTimers ∧ 5 ≤ P.maxLen ∧ P.maxLen ≤ 65531 ∧ P.lineTerm ≠ [] ∧
    ∀ b ∈ P.lineTerm, b ≠ 0x7B#8 ∧ b ≠ 0x7D#8 ∧ ¬ IsHexDigitByte b

/-- The default build: two timers, `MAXLEN = 255`, `LINE_TERM = 0x0A`, `HEX_CASE = upper`, CRC-32/ISO-HDLC (R10).
DESIGN CHOICE (log entry 3): the two intervals are the example values of 95_test_vectors.md section 0; the spec gives
none. -/
def Params.default : Params :=
  { intervals := [0x00007530#32, 0x000003E8#32], maxLen := 255, lineTerm := [0x0A#8], hexCase := .upper,
    crc := .isoHdlc }

end Sys2Proof
end

