-- ==== Sys2Proof/Machine/Memory.lean ====
section
/-! DEFINITION. The payload buffer `BUF` as a memory (10_state.md R29, 20_memory.md): a list of (address, byte) pairs in
canonical form, its byte read and byte write, and the wider accesses FRAME makes, built from them in one place. -/
namespace Sys2Proof.Machine
open Sys2Proof

/-- The contents of `BUF`: the bytes that differ from what an unlisted address reads as. -/
abbrev Memory := List Host.Cell

/-- What an address that is not listed reads as. DESIGN CHOICE (log entry 4): the spec leaves the reset contents
unspecified (R29); every other launch content is a listed byte. -/
def Memory.unlisted (_a : Nat) : Byte := 0#8

/-- The canonical form: addresses strictly rising, and no byte listed that an unlisted address would read as. -/
abbrev Memory.wf (m : Memory) : Prop :=
  m.Pairwise (fun c d => c.1 < d.1) ∧ ∀ c ∈ m, c.2 ≠ Memory.unlisted c.1

/-- `MemRead(a, 1)` (R14, R50): the byte at address `a`. -/
def Memory.read : Memory → Nat → Byte
  | [], a => Memory.unlisted a
  | c :: rest, a => if c.1 = a then c.2 else Memory.read rest a

/-- The memory without the listed byte at `a`. -/
def Memory.erase (m : Memory) (a : Nat) : Memory := m.filter (fun c => c.1 ≠ a)

/-- The memory with the byte `v` listed at `a`, in address order. -/
def Memory.insert (a : Nat) (v : Byte) : Memory → Memory
  | [] => [(a, v)]
  | c :: rest => if a < c.1 then (a, v) :: c :: rest else c :: Memory.insert a v rest

/-- `MemWrite(a, 1, v)` (R14): sets the byte at `a` to `v`, keeping the canonical form. -/
def Memory.write (m : Memory) (a : Nat) (v : Byte) : Memory :=
  if v = Memory.unlisted a then m.erase a else Memory.insert a v (m.erase a)

/-- The `n` bytes from address `a` up, in rising address order. -/
def Memory.readBytes (m : Memory) : Nat → Nat → List Byte
  | _, 0 => []
  | a, n + 1 => m.read a :: m.readBytes (a + 1) n

/-- The memory with the bytes of a list stored from address `a` up. -/
def Memory.writeBytes (m : Memory) : Nat → List Byte → Memory
  | _, [] => m
  | a, v :: vs => (m.write a v).writeBytes (a + 1) vs

/-- The four bytes of a word, most significant first (R44). -/
def bigEndian (v : Word) : List Byte :=
  [v.extractLsb' 24 8, v.extractLsb' 16 8, v.extractLsb' 8 8, v.extractLsb' 0 8]

/-- `MemWrite(a, 4, v)` (R44): four byte writes, the most significant byte at `a`. -/
def Memory.writeWord (m : Memory) (a : Nat) (v : Word) : Memory := m.writeBytes a (bigEndian v)

end Sys2Proof.Machine
end

