-- ==== Sys2Proof/Machine/State.lean ====
section
/-! DEFINITION. The state of CORE (10_state.md R20 to R35) with its ports (R33), what the host is about to present, and
the build the state belongs to; the reasons a step can stop; the launch states (70_reset_and_hazards.md R210, R212) and
reset. -/
namespace Sys2Proof.Machine
open Sys2Proof

/-- A timer record (R24). -/
structure Timer where
  /-- `TIMER[t].next`, the source's `next_deadline`, a tick value. -/
  next     : Word
  /-- `TIMER[t].interval`, a tick count, constant after reset (R25). -/
  interval : Word
  /-- `TIMER[t].fff`, the source's `force_first_fire`. -/
  fff      : Bool
deriving DecidableEq, Repr

/-- What reset leaves unspecified (R26, R29, R212): an arbitrary input of the launch state. -/
structure LaunchInput where
  /-- The values of `TIMER[0].next`, `TIMER[1].next` and so on; a timer beyond the list holds 0. -/
  nexts : List Word
  /-- The bytes of `BUF` from address 0 up; an address beyond the list holds `Memory.unlisted`. -/
  bytes : List Byte
deriving DecidableEq, Repr

/-- One thing the host does at CORE's input ports (R9, R33). -/
inductive HostInput where
  /-- The host presents a command word while the `now` port carries this tick value. -/
  | command (cmd : Word) (now : Word)
  /-- The `reset` port is asserted; the unspecified contents of the new launch state come with it (R211). -/
  | reset (d : LaunchInput)
deriving DecidableEq, Repr

/-- The state. `timers`, `acc`, `buf` and `tx` are the whole architectural state (R20); the other fields are the model's
own: the build, the ports, and the host's next inputs (log entries 1, 5 and 6). -/
structure State where
  /-- The build: the parameters of R10, which no step changes. -/
  params    : Params
  /-- `TIMER[0]` to `TIMER[NTIMERS-1]` (R23). -/
  timers    : List Timer
  /-- `ACC`, the running checksum before the final inversion (R28). -/
  acc       : Word
  /-- `BUF` (R29). -/
  buf       : Memory
  /-- `TX`, every byte sent since reset, oldest first (R31). -/
  tx        : List Byte
  /-- The level of the `now` port (R33, R195). -/
  now       : Word
  /-- The `rsp_status` port: the status of the latest response (R33, R63). -/
  rspStatus : BitVec 4
  /-- The `rsp_value` port: the value of the latest response (R33, R63). -/
  rspValue  : Word
  /-- What the host is still to present, the next input first (R22, R50). -/
  pending   : List HostInput
deriving DecidableEq, Repr

/-- The reasons CORE stops with a fault: none. Every command word has an outcome after which CORE goes on (R180, R184,
R223; 93_implementation_defined.md: "Nothing in CORE is `fault`"), so no constructor exists and nothing raises one. -/
inductive Fault where
deriving DecidableEq, Repr

/-- The reasons a command has no meaning in the model. -/
inductive Refusal where
  /-- Raised by an arm of `exec` whose command has no meaning yet; safe. No arm raises it: all seven commands have their
  meaning. -/
  | notModelled (mnemonic : String)
deriving DecidableEq, Repr

/-- The timers right after reset, from timer `i` up: `fff` set, the interval of the build, an unspecified deadline
(R210). -/
def launchTimers (nexts : List Word) : Nat → List Word → List Timer
  | _, [] => []
  | i, interval :: rest =>
    { next := nexts.getD i 0#32, interval := interval, fff := true } :: launchTimers nexts (i + 1) rest

/-- The launch state of the build `P` for the unspecified contents `d` (R210, R212). The ports are idle.
DESIGN CHOICE (log entry 2): `ACC` is the start value of the build's own `CRC_ALG`. R28, R210 and R212 give `0xFFFFFFFF`,
which is the default algorithm's; for a build with another algorithm the spec states no reset value, and R28's words "the
value CKINIT writes" are kept.
DESIGN CHOICE (log entry 6): the response ports read (0, 0) and the `now` port 0; the spec gives them no reset value. -/
def State.launch (P : Params) (d : LaunchInput) : State :=
  { params := P
    timers := launchTimers d.nexts 0 P.intervals
    acc := P.crc.init
    buf := Memory.writeBytes [] 0 (d.bytes.take P.bufSize)
    tx := []
    now := 0#32
    rspStatus := 0#4
    rspValue := 0#32
    pending := [] }

/-- The state right after reset: the launch state of the default build.
DESIGN CHOICE (log entries 4 and 7): the unspecified deadlines and buffer bytes are 0 here; `State.launch` ranges over
all of them. -/
def State.reset : State := State.launch Params.default { nexts := [], bytes := [] }

/-- The state with the accumulator set. -/
def State.withAcc (s : State) (v : Word) : State := { s with acc := v }

/-- The state with the buffer set. -/
def State.withBuf (s : State) (m : Memory) : State := { s with buf := m }

/-- The state with the timer records set. -/
def State.withTimers (s : State) (ts : List Timer) : State := { s with timers := ts }

/-- The state after bytes are appended to the output stream: `TX <- TX ++ bytes` (R14, R31). -/
def State.send (s : State) (bytes : List Byte) : State := { s with tx := s.tx ++ bytes }

/-- The state with a response on the response ports (R33). -/
def State.answer (s : State) (status : BitVec 4) (value : Word) : State :=
  { s with rspStatus := status, rspValue := value }

/-- The state once the host's next input is taken: `rest` is still to come and the `now` port carries `now`. -/
def State.take (s : State) (now : Word) (rest : List HostInput) : State :=
  { s with now := now, pending := rest }

end Sys2Proof.Machine
end

