-- ==== Sys2Proof/Machine/Ops.lean ====
section
/-! DEFINITION. The operations the commands share: ending a command with a response or with a command error
(00_scope.md R15, 60_exceptions.md R181 to R184), and the checksum function (40_checksum.md R81 to R83). -/
namespace Sys2Proof.Machine
open Sys2Proof

/-- The status code of a command error (R182). -/
def errorCode : CmdError → BitVec 4
  | .illegalOpcode => 1#4
  | .reservedField => 2#4
  | .badTimer => 3#4
  | .badAddress => 4#4
  | .badLength => 5#4

/-- `respond(v)` (R15): the command ends with status 0 (OK) and value `v`. -/
def respond (v : Word) (s : State) : Host.Outcome State Fault Refusal := .next (s.answer 0#4 v)

/-- `raise CommandError(code)` (R15, R181): taking an exception. The command ends with the error's status and value 0,
and nothing else is written. There is no handler, nothing is saved, and nothing is there to return from: the next
command runs as if this one had not been sent (R184). DEDUCED (log entry 8): a next state, no fault and no refusal. -/
def raiseError (e : CmdError) (s : State) : Host.Outcome State Fault Refusal := .next (s.answer (errorCode e) 0#32)

/-- A function to words written out as a table: the first row of the argument, or 0 where it has none. -/
def tableAt {α : Type} [BEq α] (rows : List (α × Word)) (x : α) : Word := (rows.lookup x).getD 0#32

/-- One bit of the checksum. `lsbFirst` is R81's loop body; `msbFirst` is its mirror image, PRESUMED from the family of
32-bit CRCs (log entry 2). -/
def crcBit (poly : Word) (order : BitOrder) (acc : Word) : Word :=
  match order with
  | .lsbFirst => if acc.getLsbD 0 then (acc >>> 1) ^^^ poly else acc >>> 1
  | .msbFirst => if acc.getLsbD 31 then (acc <<< 1) ^^^ poly else acc <<< 1

/-- `k` bits of the checksum. -/
def crcBits (poly : Word) (order : BitOrder) : Nat → Word → Word
  | 0, acc => acc
  | k + 1, acc => crcBits poly order k (crcBit poly order acc)

/-- The accumulator once the byte has met its end of it: the low 8 bits in R81. -/
def crcMeet (order : BitOrder) (acc : Word) (b : Byte) : Word :=
  match order with
  | .lsbFirst => acc ^^^ b.setWidth 32
  | .msbFirst => acc ^^^ (b.setWidth 32 <<< 24)

/-- `crc_step(acc, b)` (R81; another build's step function, log entry 2). -/
def crcStep (alg : CrcAlg) (acc : Word) (b : Byte) : Word :=
  match alg.step with
  | .bitSerial poly order => crcBits poly order 8 (crcMeet order acc b)
  | .table rows => tableAt rows (acc, b)

/-- The bytes folded into an accumulator in rising index order (R82). -/
def crcFold (alg : CrcAlg) (acc : Word) (bytes : List Byte) : Word := bytes.foldl (crcStep alg) acc

/-- `crc_acc(s)` (R82). -/
def crcAcc (alg : CrcAlg) (bytes : List Byte) : Word := crcFold alg alg.init bytes

/-- The finalised checksum of an accumulator: `ACC xor 0xFFFFFFFF` in the default algorithm (R83, R86; another
build's final function, log entry 2). -/
def crcFinal (alg : CrcAlg) (acc : Word) : Word :=
  match alg.final with
  | .xor v => acc ^^^ v
  | .table rows => tableAt rows acc

/-- `crc(s)`, the checksum of a byte sequence (R83). -/
def crc (alg : CrcAlg) (bytes : List Byte) : Word := crcFinal alg (crcAcc alg bytes)

end Sys2Proof.Machine
end

