-- ==== Sys2Proof/Machine/Operands.lean ====
section
/-! DEFINITION. The operand forms of the commands: a timer index, a buffer address and an application length, each with
the range check that the command's own rule makes (30_encoding.md R61, R64 step 3; 20_memory.md R41). A data byte has no
check. Addressing is absolute only (42_buffer.md R120). -/
namespace Sys2Proof.Machine
open Sys2Proof

/-- `BUFSIZE` (R29). -/
def State.bufSize (s : State) : Nat := s.params.bufSize

/-- `TIMER[t]`, if `t < NTIMERS` (R101). DEDUCED (log entry 11): there are `NTIMERS` timer records (R23). -/
def State.timer? (s : State) (t : Nat) : Option Timer := s.timers[t]?

/-- The state with timer record `t` replaced; no other record is touched (R23). -/
def State.setTimer (s : State) (t : Nat) (T : Timer) : State := s.withTimers (s.timers.set t T)

/-- The address is valid: `a < BUFSIZE` (R41). -/
def State.addressOk (s : State) (a : Nat) : Bool := decide (a < s.bufSize)

/-- The length is legal: `n <= MAXLEN` (R135). -/
def State.lengthOk (s : State) (n : Nat) : Bool := decide (n ≤ s.params.maxLen)

end Sys2Proof.Machine
end

