-- ==== Sys2Proof/Machine/Buffer.lean ====
section
/-! DEFINITION. The meanings of BUFWR and BUFRD (42_buffer.md R121, R122). -/
namespace Sys2Proof.Machine
open Sys2Proof

/-- BUFWR a, b (R121). The checksum bytes at addresses 0 to 3 are ordinary memory here (R43). -/
def execBufwr (a : Nat) (b : Byte) (s : State) : Host.Outcome State Fault Refusal :=
  if s.addressOk a then respond 0#32 (s.withBuf (s.buf.write a b)) else raiseError .badAddress s

/-- BUFRD a (R122). The byte is zero-extended; no state changes. -/
def execBufrd (a : Nat) (s : State) : Host.Outcome State Fault Refusal :=
  if s.addressOk a then respond ((s.buf.read a).setWidth 32) s else raiseError .badAddress s

end Sys2Proof.Machine
end

