-- ==== Sys2Proof/Machine/Checksum.lean ====
section
/-! DEFINITION. The meanings of CKINIT, CKBYTE and CKRD (40_checksum.md R84 to R86). -/
namespace Sys2Proof.Machine
open Sys2Proof

/-- CKINIT (R84): `ACC` gets the value `CRC_ALG` starts from, `0xFFFFFFFF` in the default algorithm; that a build with
another algorithm starts from that algorithm's own value is a DESIGN CHOICE (log entry 2). -/
def execCkinit (s : State) : Host.Outcome State Fault Refusal := respond 0#32 (s.withAcc s.params.crc.init)

/-- CKBYTE b (R85). -/
def execCkbyte (b : Byte) (s : State) : Host.Outcome State Fault Refusal :=
  respond 0#32 (s.withAcc (crcStep s.params.crc s.acc b))

/-- CKRD (R86). `ACC` is not changed. -/
def execCkrd (s : State) : Host.Outcome State Fault Refusal := respond (crcFinal s.params.crc s.acc) s

end Sys2Proof.Machine
end

