-- ==== Sys2Proof/Machine/Framer.lean ====
section
/-! DEFINITION. The hex encoder, the text of a frame, and the meaning of FRAME (43_framer.md R130 to R142). -/
namespace Sys2Proof.Machine
open Sys2Proof

/-- The opening delimiter, three times `0x7B` (R131, R134, R141). -/
def openDelim : List Byte := [0x7B#8, 0x7B#8, 0x7B#8]

/-- The closing delimiter, three times `0x7D` (R131, R134, R141). -/
def closeDelim : List Byte := [0x7D#8, 0x7D#8, 0x7D#8]

/-- The ASCII code of the letter that stands for the digit value 10 (R131, R132). -/
def letterBase : HexCase → Byte
  | .upper => 0x41#8
  | .lower => 0x61#8

/-- `hexdigit(v)` (R132). -/
def hexDigit (c : HexCase) (v : BitVec 4) : Byte :=
  if v.toNat < 10 then 0x30#8 + v.setWidth 8 else letterBase c + (v.setWidth 8 - 10#8)

/-- `hexbyte(b)` (R133): high nibble first, always two characters. -/
def hexByte (c : HexCase) (b : Byte) : List Byte :=
  [hexDigit c (b.extractLsb' 4 4), hexDigit c (b.extractLsb' 0 4)]

/-- The hex characters of a byte sequence, with no separator (R133). -/
def hexBytes (c : HexCase) : List Byte → List Byte
  | [] => []
  | b :: bs => hexByte c b ++ hexBytes c bs

/-- `frame_text(D)` (R134). -/
def frameText (P : Params) (D : List Byte) : List Byte :=
  openDelim ++ (hexBytes P.hexCase D ++ (closeDelim ++ P.lineTerm))

/-- The application payload of length `n`: `BUF[4 .. 4+n)` (R42). -/
def State.payload (s : State) (n : Nat) : List Byte := s.buf.readBytes prefixLen n

/-- `BUF` after step 1 of FRAME: the checksum of the payload big-endian at address 0 (R135, R44). -/
def State.checksummedBuf (s : State) (n : Nat) : Memory := s.buf.writeWord 0 (crc s.params.crc (s.payload n))

/-- FRAME n (R135). The bytes sent are read after the checksum is stored, so they hold the checksum just written (R47).
DEDUCED (log entry 14): one step, since the command is atomic. -/
def execFrame (n : Nat) (s : State) : Host.Outcome State Fault Refusal :=
  if s.lengthOk n then
    respond 0#32 (((s.withAcc (crcAcc s.params.crc (s.payload n))).withBuf (s.checksummedBuf n)).send
      (frameText s.params ((s.checksummedBuf n).readBytes 0 (prefixLen + n))))
  else raiseError .badLength s

end Sys2Proof.Machine
end

