-- ==== Sys2Proof/Machine/Flags.lean ====
section
/-! DEFINITION. The one flag CORE keeps, `TIMER[t].fff`, and the one-bit result of a check, the due bit (10_state.md R35;
41_timer.md R101, R102). CORE has no condition codes. -/
namespace Sys2Proof.Machine
open Sys2Proof

/-- `HALF`, the half-space boundary `2^31` (R10). -/
def half : Word := 0x80000000#32

/-- The half-space guard of R101: the deadline is in the low half and the clock in the high half. -/
def guarded (next now : Word) : Bool := decide (next < half) && decide (half ≤ now)

/-- The due test of R101 on a timer record at tick value `now`. -/
def Timer.isDue (T : Timer) (now : Word) : Bool :=
  if T.fff then true
  else if guarded T.next now then false
  else decide (T.next ≤ now)

/-- The record after a due check: rearmed from `now`, not from the old deadline, modulo `2^32`, with `fff` consumed
(R101, R102). In the branch that is not the first check `fff` is 0 already. -/
def Timer.rearm (T : Timer) (now : Word) : Timer := { T with next := now + T.interval, fff := false }

/-- The due bit as a response value: bit 0, the others zero (R63). -/
def dueValue (due : Bool) : Word := if due then 1#32 else 0#32

end Sys2Proof.Machine
end

