-- ==== Sys2Proof/Machine/TimerScheduler.lean ====
section
/-! DEFINITION. The meaning of TDUE (41_timer.md R101). -/
namespace Sys2Proof.Machine
open Sys2Proof

/-- TDUE t (R101). `now` is sampled once, from the port, for the comparison and for the rearm (R195).
DEDUCED (log entry 9): the port's value comes with the host's input and is under no law (R196). -/
def execTdue (t : Nat) (s : State) : Host.Outcome State Fault Refusal :=
  match s.timer? t with
  | none => raiseError .badTimer s
  | some T =>
    if T.isDue s.now then respond (dueValue true) (s.setTimer t (T.rearm s.now))
    else respond (dueValue false) s

end Sys2Proof.Machine
end

