-- ==== Sys2Proof/Machine/Dispatch.lean ====
section
/-! DEFINITION. exec: one arm for each command, in the order of the opcode table (30_encoding.md R62). -/
namespace Sys2Proof.Machine
open Sys2Proof

def exec (i : Instr) (s : State) : Host.Outcome State Fault Refusal :=
  match i with
  | .ckinit => Sys2Proof.Machine.execCkinit s
  | .ckbyte b => Sys2Proof.Machine.execCkbyte b s
  | .ckrd => Sys2Proof.Machine.execCkrd s
  | .tdue t => Sys2Proof.Machine.execTdue t s
  | .bufwr a b => Sys2Proof.Machine.execBufwr a b s
  | .bufrd a => Sys2Proof.Machine.execBufrd a s
  | .frame n => Sys2Proof.Machine.execFrame n s

end Sys2Proof.Machine
end

