-- ==== Sys2Proof/Machine/Port.lean ====
section
/-! DEFINITION. What CORE does with a word on its command port and with its reset port (30_encoding.md R64,
70_reset_and_hazards.md R210, R211). -/
namespace Sys2Proof.Machine
open Sys2Proof

/-- A command word is decoded and runs, or its error is the response (R64). -/
def runWord (w : Word) (s : State) : Host.Outcome State Fault Refusal :=
  match decode w with
  | .ok i => exec i s
  | .error e => raiseError e s

/-- The `reset` port (R33, R210, R211): a launch state of the same build, whatever ran before. The host's
remaining inputs and the tick counter's level on the `now` port are not CORE's and stay. DESIGN CHOICE (log entry 10):
R211 lets a model give reset no step. -/
def resetPort (d : LaunchInput) (s : State) : Host.Outcome State Fault Refusal :=
  .next { State.launch s.params d with now := s.now, pending := s.pending }

/-- CORE takes one input of the host. -/
def takeInput (x : HostInput) (rest : List HostInput) (s : State) : Host.Outcome State Fault Refusal :=
  match x with
  | .command w now => runWord w (s.take now rest)
  | .reset d => resetPort d (s.take s.now rest)

end Sys2Proof.Machine
end

