-- ==== Sys2Proof/Machine/Step.lean ====
section
/-! DEFINITION. One step: CORE takes the host's next input, one command to completion (20_memory.md R50). With no input
pending CORE is idle, and an idle CORE keeps all its state (60_exceptions.md R200). -/
namespace Sys2Proof.Machine
open Sys2Proof

/-- One step of CORE. -/
def step (s : State) : Host.Outcome State Fault Refusal :=
  match s.pending with
  | [] => .next s
  | x :: rest => takeInput x rest s

/-- `s` with the word presented as the host's very next command, at the tick value the `now` port carries (log entry 5:
a program is the sequence of words the host presents). -/
def State.withFetchWord (s : State) (nbits w : Nat) : State :=
  { s with pending := .command (tableWord nbits w) s.now :: s.pending }

end Sys2Proof.Machine
end

