-- ==== Sys2Proof/Machine/Pseudo.lean ====
section
/-! DEFINITION. The host's shorthands (30_encoding.md R69): a pseudo-command is a sequence of commands the host presents
one at a time; it is no command of CORE and is not atomic. -/
namespace Sys2Proof.Machine
open Sys2Proof

/-- `CKSUM b0, ..., bk-1` (R69). -/
def cksum (bytes : List Byte) : List Instr := .ckinit :: (bytes.map .ckbyte ++ [.ckrd])

/-- A BUFWR of each byte, from address `a` up. -/
def fillFrom : Nat → List Byte → List Instr
  | _, [] => []
  | a, b :: bs => .bufwr a b :: fillFrom (a + 1) bs

/-- `FILL b0, ..., bk-1` (R69): the bytes go to address 4 and up. -/
def fill (bytes : List Byte) : List Instr := fillFrom prefixLen bytes

/-- `SEND b0, ..., bk-1` (R69). -/
def send (bytes : List Byte) : List Instr := fill bytes ++ [.frame bytes.length]

/-- The host's inputs that present commands, each with the tick value of its `now` port (R33). -/
def presentAll (cs : List (Instr × Word)) : List HostInput := cs.map (fun c => .command (encode c.1) c.2)

/-- The same tick value with every command of a sequence. -/
def allAt (now : Word) (is : List Instr) : List (Instr × Word) := is.map (fun i => (i, now))

end Sys2Proof.Machine
end

