-- ==== Sys2Proof/Machine/HostLoop.lean ====
section
/-! DEFINITION. The host's documented behaviour (44_host_collaborators.md R151 to R158) as the commands it presents. The
host is no part of CORE (00_scope.md R5): nothing here is used by `step` (DESIGN CHOICE, log entry 12). -/
namespace Sys2Proof.Machine
open Sys2Proof

/-- The number whose bit `i` is the `i`-th level, line 0 first. -/
def lineBits : List Bool → Nat
  | [] => 0
  | level :: rest => level.toNat + 2 * lineBits rest

/-- `sample()` (R154): bit `i` is set when line `i` is high, lines in order from 0. -/
def sampleMask (lines : List Bool) : Byte := BitVec.ofNat 8 (lineBits lines)

/-- The GPIO report (R153): the 4-byte tag, a parameter of the host (R11), and the mask, filled and framed. -/
def gpioReport (tag : List Byte) (lines : List Bool) : List Instr := send (tag ++ [sampleMask lines])

/-- The signature (R11, R156). -/
def signature : List Byte := [0x99#8, 0x04#8, 0x05#8]

/-- The filter (R156): more than 2 bytes, the first three of them the signature. -/
def forwards (M : List Byte) : Bool := decide (2 < M.length) && M.take 3 == signature

/-- The Advertisement Bridge (R155): nothing without manufacturer data; a fill, provided it fits (R123); and a FRAME when
the filter passes. The fill comes before the filter. -/
def advertPoll (maxLen : Nat) (M : Option (List Byte)) : List Instr :=
  match M with
  | none => []
  | some M => if M.length ≤ maxLen then fill M ++ (if forwards M then [.frame M.length] else []) else []

/-- One iteration of the main loop (R151), given the due bit the TDUE of timer 1 answered. The action of timer 0 is the
scan restart, which presents no command (R152); timer 0 is checked before timer 1, and both before the advertisements. -/
def loopIteration (maxLen : Nat) (tag : List Byte) (due1 : Bool) (lines : List Bool) (M : Option (List Byte)) :
    List Instr :=
  [.tdue 0, .tdue 1] ++ ((if due1 then gpioReport tag lines else []) ++ advertPoll maxLen M)

end Sys2Proof.Machine
end

