-- ==== Sys2Proof/Safety.lean ====
section
/-! DEFINITION. The words statements use: launch states, the invariant of every step, runs, whole frames and the
receiver's reading of a frame, the window of a deadline, and the latest due check of a run. -/
namespace Sys2Proof.Machine
open Sys2Proof

/-- Every byte listed lies in `BUF`: its address is below `size` (20_memory.md R40). -/
abbrev Memory.Within (m : Memory) (size : Nat) : Prop := ∀ c ∈ m, c.1 < size

/-- A launch state (70_reset_and_hazards.md R212): `fff = 1` and the build's interval in every timer, `ACC` at its reset
value, `TX` empty; every `next` and every byte of `BUF` arbitrary. DESIGN CHOICE (log entry 2): in a build whose `CRC_ALG` is
not the default the reset value of `ACC` is that algorithm's start value. -/
def Launch (s : State) : Prop :=
  s.params.Ok ∧ s.timers.map Timer.interval = s.params.intervals ∧ (∀ T ∈ s.timers, T.fff = true) ∧
    s.acc = s.params.crc.init ∧ s.tx = [] ∧ s.buf.wf ∧ s.buf.Within s.bufSize

/-- The bytes of one frame for an application payload: the checksum, then the payload (43_framer.md R134, R135). -/
def wireFrame (P : Params) (payload : List Byte) : List Byte :=
  frameText P (bigEndian (crc P.crc payload) ++ payload)

/-- The byte sequence is a concatenation of whole frames of legal length (10_state.md R32). -/
def WholeFrames (P : Params) (bytes : List Byte) : Prop :=
  ∃ payloads : List (List Byte), (∀ p ∈ payloads, p.length ≤ P.maxLen) ∧ bytes = payloads.flatMap (wireFrame P)

/-- The response ports hold a response CORE can give: a status of 0 to 5, and value 0 with an error (30_encoding.md R63,
60_exceptions.md R182). -/
def LegalResponse (status : BitVec 4) (value : Word) : Prop :=
  status.toNat ≤ 5 ∧ (status ≠ 0#4 → value = 0#32)

/-- What every step keeps: a legal build, one record with the build's interval for each timer (R23, R25), a buffer in
canonical form inside its address space (R29, R40), whole frames on the stream (R32), a legal response. -/
structure Inv (s : State) : Prop where
  build : s.params.Ok
  intervals : s.timers.map Timer.interval = s.params.intervals
  canonical : s.buf.wf
  within : s.buf.Within s.bufSize
  frames : WholeFrames s.params s.tx
  response : LegalResponse s.rspStatus s.rspValue

/-- The run of `k` steps from a state. -/
def runSteps : Nat → State → Host.Outcome State Fault Refusal
  | 0, s => .next s
  | k + 1, s =>
    match step s with
    | .next s' => runSteps k s'
    | .fault r => .fault r
    | .refused r => .refused r

/-- The state with these commands as the host's next inputs. -/
def State.presented (s : State) (cs : List (Instr × Word)) : State := { s with pending := presentAll cs }

/-- The bytes that the CKBYTE commands of a sequence fold in. -/
def foldedBytes : List (Instr × Word) → List Byte
  | [] => []
  | (.ckbyte b, _) :: cs => b :: foldedBytes cs
  | _ :: cs => foldedBytes cs

/-- The command sets `ACC` afresh: CKINIT and FRAME (70_reset_and_hazards.md R217). -/
def restartsAcc : Instr → Bool
  | .ckinit => true
  | .frame _ => true
  | _ => false

/-- The first tick value after the window of a deadline: the end of the deadline's own half (41_timer.md R105). -/
def windowEnd (next : Word) : Nat := if next.toNat < 2 ^ 31 then 2 ^ 31 else 2 ^ 32

/-- The tick value lies in the window `W(next)` (R105). -/
def InWindow (next now : Word) : Prop := next.toNat ≤ now.toNat ∧ now.toNat < windowEnd next

/-- The tick value at which the step from `s` answers due for timer `t`, if it does: the step takes a TDUE of `t` and
responds (0, 1). -/
def dueNow (t : Nat) (s : State) : Option Word :=
  match s.pending, step s with
  | .command w now :: _, .next s' =>
    if decode w = .ok (.tdue t) ∧ s'.rspStatus = 0#4 ∧ s'.rspValue = 1#32 then some now else none
  | _, _ => none

/-- The tick value of the latest due check of timer `t` in a run of `k` steps, if there is one (10_state.md R27). -/
def lastDue (t : Nat) : Nat → State → Option Word
  | 0, _ => none
  | k + 1, s =>
    match step s with
    | .next s' =>
      match lastDue t k s' with
      | some n => some n
      | none => dueNow t s
    | _ => none

/-- The application payload the step from `s` frames, if it takes a FRAME of legal length. -/
def frameNow (s : State) : List (List Byte) :=
  match s.pending with
  | .command w _ :: _ =>
    match decode w with
    | .ok (.frame n) => if n ≤ s.params.maxLen then [(List.range n).map (fun i => s.buf.read (4 + i))] else []
    | _ => []
  | _ => []

/-- The application payloads that a run of `k` steps frames, in the order of the FRAME commands (20_memory.md R53). -/
def framedPayloads : Nat → State → List (List Byte)
  | 0, _ => []
  | k + 1, s =>
    match step s with
    | .next s' => frameNow s ++ framedPayloads k s'
    | _ => frameNow s

/-- The input is no reset. -/
def HostInput.isCommand : HostInput → Bool
  | .command _ _ => true
  | .reset _ => false

/-- The input is a command other than a check of timer `t`: a word that does not decode to TDUE of `t`. -/
def HostInput.isOtherThanCheckOf (t : Nat) : HostInput → Bool
  | .command w _ => decide (decode w ≠ .ok (.tdue t))
  | .reset _ => false

/-- The receiver's value of a hex digit of either case. -/
def digitValue (ch : Byte) : Option (BitVec 4) :=
  let v := ch.toNat
  if 0x30 ≤ v ∧ v ≤ 0x39 then some (BitVec.ofNat 4 (v - 0x30))
  else if 0x41 ≤ v ∧ v ≤ 0x46 then some (BitVec.ofNat 4 (v - 0x41 + 10))
  else if 0x61 ≤ v ∧ v ≤ 0x66 then some (BitVec.ofNat 4 (v - 0x61 + 10))
  else none

/-- The receiver's reading of hex characters, two at a time, the high digit first (43_framer.md R140). -/
def unhex : List Byte → Option (List Byte)
  | [] => some []
  | [_] => none
  | h :: l :: rest =>
    match digitValue h, digitValue l, unhex rest with
    | some x, some y, some bs => some ((x ++ y : BitVec (4 + 4)) :: bs)
    | _, _, _ => none

/-- A frame without its first three and its last `3 + |LINE_TERM|` bytes (R140). -/
def stripDelims (P : Params) (F : List Byte) : List Byte :=
  (F.drop 3).take (F.length - 3 - (3 + P.lineTerm.length))

end Sys2Proof.Machine
end

