-- ==== Sys2Proof/Certificates/Slice0/Obligations.lean ====
section
/-! DEFINITION. The statements for the provers. Each docstring names the rule of the spec that the statement formalises.
`s` ranges over every state, so every statement holds for every build (`s.params`) and every contents of the ports. -/
open Sys2Proof Sys2Proof.Machine

/-! ### The command port and decoding -/

/-- A step on a presented word that decodes to `i` is `exec i`, once the word is taken from the port and the `now` port
carries the tick value presented with it (R50, R64 step 4). -/
def Obligations.StepRunsTheDecodedCommand : Prop :=
  ∀ (s : State) (w now : Word) (rest : List HostInput) (i : Instr),
    s.pending = .command w now :: rest → decode w = .ok i →
      step s = exec i { s with now := now, pending := rest }

/-- The outcome of every word on the port, checks in the order opcode, reserved field, operand range (R64, R183, and the
causes of R182): the status, with an error nothing else changes, and without one the command executes. -/
def Obligations.StatusOfEveryWord : Prop :=
  ∀ (s : State) (w now : Word) (rest : List HostInput), s.pending = .command w now :: rest →
    ∃ t : State, step s = .next t ∧
      t.rspStatus =
        (if w.extractLsb' 24 8 = 0x00#8 ∨ 0x08#8 ≤ w.extractLsb' 24 8 then 1#4
        else if (w.extractLsb' 24 8 = 0x01#8 ∨ w.extractLsb' 24 8 = 0x03#8) ∧ w.extractLsb' 0 24 ≠ 0#24 then 2#4
        else if w.extractLsb' 24 8 = 0x02#8 ∧ w.extractLsb' 8 16 ≠ 0#16 then 2#4
        else if (w.extractLsb' 24 8 = 0x04#8 ∨ w.extractLsb' 24 8 = 0x06#8 ∨ w.extractLsb' 24 8 = 0x07#8) ∧
          w.extractLsb' 0 8 ≠ 0#8 then 2#4
        else if w.extractLsb' 24 8 = 0x04#8 ∧ s.timers.length ≤ (w.extractLsb' 8 16).toNat then 3#4
        else if (w.extractLsb' 24 8 = 0x05#8 ∨ w.extractLsb' 24 8 = 0x06#8) ∧
          s.params.maxLen + 4 ≤ (w.extractLsb' 8 16).toNat then 4#4
        else if w.extractLsb' 24 8 = 0x07#8 ∧ s.params.maxLen < (w.extractLsb' 8 16).toNat then 5#4
        else 0#4) ∧
      (t.rspStatus ≠ 0#4 →
        t = { s with now := now, pending := rest, rspStatus := t.rspStatus, rspValue := 0#32 }) ∧
      (t.rspStatus = 0#4 → ∃ i : Instr, decode w = .ok i ∧ exec i { s with now := now, pending := rest } = .next t)

/-- A command error saves nothing and changes nothing, and the next command executes as if the failed one had not been
sent (R184). -/
def Obligations.NextCommandRunsAsIfTheFailedOneWasNotSent : Prop :=
  ∀ (s t : State) (w : Word), runWord w s = .next t → t.rspStatus ≠ 0#4 →
    t = { s with rspStatus := t.rspStatus, rspValue := 0#32 } ∧ ∀ w' : Word, runWord w' t = runWord w' s

/-- The response value (rests on R63): 0 with an error; with status 0 the result of the command the word is, zero-extended.
R63's `ACC xor 0xFFFFFFFF` is the default algorithm's; that CKRD answers the final function of the build's own algorithm is
the model's choice (log entry 2). -/
def Obligations.ResponseValueOfEachCommand : Prop :=
  ∀ (w : Word) (s : State), ∃ t : State, runWord w s = .next t ∧
    (t.rspStatus ≠ 0#4 → t.rspValue = 0#32) ∧
    (t.rspStatus = 0#4 → ∃ i : Instr, decode w = .ok i ∧
      (i = .ckinit ∨ (∃ b, i = .ckbyte b) ∨ (∃ a b, i = .bufwr a b) ∨ (∃ n, i = .frame n) → t.rspValue = 0#32) ∧
      (i = .ckrd → t.rspValue = crcFinal s.params.crc s.acc ∧
        (s.params.crc = .isoHdlc → t.rspValue = s.acc ^^^ 0xFFFFFFFF#32)) ∧
      (∀ u, i = .tdue u → t.rspValue.extractLsb' 1 31 = 0#31 ∧
        ∃ T : Timer, s.timers[u]? = some T ∧ t.rspValue.getLsbD 0 = T.isDue s.now) ∧
      (∀ a, i = .bufrd a → t.rspValue.extractLsb' 8 24 = 0#24 ∧ t.rspValue.extractLsb' 0 8 = s.buf.read a))

/-- The illegal opcodes (R65). Every other word is a command with its must-be-zero fields zero, or has a reserved field
set. -/
def Obligations.IllegalOpcodesRaiseStatusOne : Prop :=
  (∀ w : Word, decode w = .error .illegalOpcode ↔ (w.extractLsb' 24 8 = 0x00#8 ∨ 0x08#8 ≤ w.extractLsb' 24 8)) ∧
    (∀ (w : Word) (s : State), (w.extractLsb' 24 8 = 0x00#8 ∨ 0x08#8 ≤ w.extractLsb' 24 8) →
      runWord w s = .next { s with rspStatus := 1#4, rspValue := 0#32 }) ∧
    decode 0x00000000#32 = .error .illegalOpcode ∧ decode 0xFFFFFFFF#32 = .error .illegalOpcode ∧
    ∀ w : Word, (∃ i : Instr, i.WellFormed ∧ encode i = w ∧ decode w = .ok i) ∨
      decode w = .error .illegalOpcode ∨ decode w = .error .reservedField

/-- The reserved words (R66): which they are, and that each raises RESERVED_FIELD with no other effect. -/
def Obligations.ReservedWordsRaiseStatusTwo : Prop :=
  (∀ w : Word, decode w = .error .reservedField ↔
    ((w.extractLsb' 24 8 = 0x01#8 ∨ w.extractLsb' 24 8 = 0x03#8) ∧ w.extractLsb' 0 24 ≠ 0#24) ∨
    (w.extractLsb' 24 8 = 0x02#8 ∧ w.extractLsb' 8 16 ≠ 0#16) ∨
    ((w.extractLsb' 24 8 = 0x04#8 ∨ w.extractLsb' 24 8 = 0x06#8 ∨ w.extractLsb' 24 8 = 0x07#8) ∧
      w.extractLsb' 0 8 ≠ 0#8)) ∧
  (∀ w : Word, w.extractLsb' 24 8 = 0x05#8 →
    decode w = .ok (.bufwr (w.extractLsb' 8 16).toNat (w.extractLsb' 0 8))) ∧
  ∀ (w : Word) (s : State), decode w = .error .reservedField →
    runWord w s = .next { s with rspStatus := 2#4, rspValue := 0#32 }

/-- The opcode map's match and mask columns select the command, and the bits outside the mask are its operands (R62). -/
def Obligations.MatchAndMaskSelectTheCommand : Prop :=
  ∀ w : Word,
    (w &&& 0xFFFFFFFF#32 = 0x01000000#32 ↔ decode w = .ok .ckinit) ∧
    (w &&& 0xFFFFFF00#32 = 0x02000000#32 ↔ decode w = .ok (.ckbyte (w.extractLsb' 0 8))) ∧
    (w &&& 0xFFFFFFFF#32 = 0x03000000#32 ↔ decode w = .ok .ckrd) ∧
    (w &&& 0xFF0000FF#32 = 0x04000000#32 ↔ decode w = .ok (.tdue (w.extractLsb' 8 16).toNat)) ∧
    (w &&& 0xFF000000#32 = 0x05000000#32 ↔
      decode w = .ok (.bufwr (w.extractLsb' 8 16).toNat (w.extractLsb' 0 8))) ∧
    (w &&& 0xFF0000FF#32 = 0x06000000#32 ↔ decode w = .ok (.bufrd (w.extractLsb' 8 16).toNat)) ∧
    (w &&& 0xFF0000FF#32 = 0x07000000#32 ↔ decode w = .ok (.frame (w.extractLsb' 8 16).toNat))

/-- Decoding an encoded command gives it back, for every command and every operand its encoding admits (R60 to R62). -/
def Obligations.DecodeOfEncodeIsTheCommand : Prop :=
  ∀ i : Instr, i.WellFormed → decode (encode i) = .ok i

/-- A word that decodes to a command is that command's encoding: each command has one word (R60 to R66). -/
def Obligations.EncodeOfDecodeIsTheWord : Prop :=
  ∀ (w : Word) (i : Instr), decode w = .ok i → i.WellFormed ∧ encode i = w

/-- The word of each command as the assembler table gives it (R68). -/
def Obligations.AssembledWordsAreSums : Prop :=
  (encode .ckinit).toNat = 0x01000000 ∧ (∀ b : Byte, (encode (.ckbyte b)).toNat = 0x02000000 + b.toNat) ∧
    (encode .ckrd).toNat = 0x03000000 ∧
    ∀ x : Nat, x ≤ 65535 →
      (encode (.tdue x)).toNat = 0x04000000 + x * 0x100 ∧
      (∀ b : Byte, (encode (.bufwr x b)).toNat = 0x05000000 + x * 0x100 + b.toNat) ∧
      (encode (.bufrd x)).toNat = 0x06000000 + x * 0x100 ∧
      (encode (.frame x)).toNat = 0x07000000 + x * 0x100

/-- Words written out from the encoding table decode to the commands they stand for (R62; 95_test_vectors.md 2.1). -/
def Obligations.WrittenOutWordsDecode : Prop :=
  decode 0b00000001000000000000000000000000#32 = .ok .ckinit ∧
    decode 0b00000010000000000000000011111111#32 = .ok (.ckbyte 0xFF#8) ∧
    decode 0b00000011000000000000000000000000#32 = .ok .ckrd ∧
    decode 0b00000100000000000000000100000000#32 = .ok (.tdue 1) ∧
    decode 0b00000101000000010000001001111110#32 = .ok (.bufwr 258 0x7E#8) ∧
    decode 0b00000110000000010000001000000000#32 = .ok (.bufrd 258) ∧
    decode 0b00000111000000000001101000000000#32 = .ok (.frame 26)

/-! ### The checksum accumulator -/

/-- CKINIT (rests on R84): its effect, its word, and its reserved words. R84 writes `0xFFFFFFFF`, the default algorithm's
start value; that CKINIT sets the start value of the build's own algorithm is the model's choice (log entry 2). -/
def Obligations.CkinitStartsANewChecksum : Prop :=
  (∀ s : State, exec .ckinit s = .next { s with acc := s.params.crc.init, rspStatus := 0#4, rspValue := 0#32 }) ∧
    (∀ s : State, s.params.crc = .isoHdlc →
      exec .ckinit s = .next { s with acc := 0xFFFFFFFF#32, rspStatus := 0#4, rspValue := 0#32 }) ∧
    encode .ckinit = 0x01000000#32 ∧
    ∀ w : Word, w.extractLsb' 24 8 = 0x01#8 →
      decode w = if w.extractLsb' 0 24 = 0#24 then .ok .ckinit else .error .reservedField

/-- CKBYTE (R85): its effect for every byte, its word, its reserved words, that a zero byte changes `ACC` unless `ACC` is
0, and the rule's example. -/
def Obligations.CkbyteFoldsOneByte : Prop :=
  (∀ (s : State) (b : Byte), exec (.ckbyte b) s =
    .next { s with acc := crcStep s.params.crc s.acc b, rspStatus := 0#4, rspValue := 0#32 }) ∧
  (∀ b : Byte, (encode (.ckbyte b)).toNat = 0x02000000 + b.toNat) ∧
  (∀ w : Word, w.extractLsb' 24 8 = 0x02#8 →
    decode w = if w.extractLsb' 8 16 = 0#16 then .ok (.ckbyte (w.extractLsb' 0 8)) else .error .reservedField) ∧
  (∀ acc : Word, crcStep .isoHdlc acc 0x00#8 = acc ↔ acc = 0#32) ∧
  crcStep .isoHdlc 0xFFFFFFFF#32 0x47#8 = 0xC545C441#32

/-- CKRD (rests on R86): its effect, its word, its reserved words, the checksum of no bytes right after CKINIT and right
after reset, and the rule's example. R86 writes `ACC xor 0xFFFFFFFF`, which is the default algorithm's; that CKRD answers the
final function of the build's own algorithm is the model's choice (log entry 2). -/
def Obligations.CkrdReturnsTheFinalisedChecksum : Prop :=
  (∀ s : State, exec .ckrd s = .next { s with rspStatus := 0#4, rspValue := crcFinal s.params.crc s.acc }) ∧
    (∀ s : State, s.params.crc = .isoHdlc →
      exec .ckrd s = .next { s with rspStatus := 0#4, rspValue := s.acc ^^^ 0xFFFFFFFF#32 }) ∧
    (∀ s t : State, s.params.crc = .isoHdlc → exec .ckinit s = .next t →
      exec .ckrd t = .next { t with rspStatus := 0#4, rspValue := 0#32 }) ∧
    (∀ (P : Params) (d : LaunchInput), P.crc = .isoHdlc → exec .ckrd (State.launch P d) =
      .next { State.launch P d with rspStatus := 0#4, rspValue := 0#32 }) ∧
    encode .ckrd = 0x03000000#32 ∧
    (∀ w : Word, w.extractLsb' 24 8 = 0x03#8 →
      decode w = if w.extractLsb' 0 24 = 0#24 then .ok .ckrd else .error .reservedField) ∧
    ∀ s : State, s.params.crc = .isoHdlc → s.acc = 0x7D748277#32 →
      exec .ckrd s = .next { s with rspStatus := 0#4, rspValue := 0x828B7D88#32 }

/-- The step function of the default algorithm is the eight rounds of R81, with the rule's values. -/
def Obligations.DefaultCrcStepIsEightRounds : Prop :=
  (∀ (acc : Word) (b : Byte), crcStep .isoHdlc acc b =
    (fun a : Word => if a.getLsbD 0 = true then (a >>> 1) ^^^ 0xEDB88320#32 else a >>> 1)^[8]
      (acc ^^^ b.setWidth 32)) ∧
  crcStep .isoHdlc 0#32 0x00#8 = 0x00000000#32 ∧ crcStep .isoHdlc 0#32 0x01#8 = 0x77073096#32 ∧
  crcStep .isoHdlc 0#32 0x80#8 = 0xEDB88320#32 ∧ crcStep .isoHdlc 0xFFFFFFFF#32 0x00#8 = 0x2DFD1072#32 ∧
  crcStep .isoHdlc 0xFFFFFFFF#32 0xFF#8 = 0x00FFFFFF#32

/-- The accumulation over a byte sequence and its final inversion (rests on R82, R83), with the values of R83. R82 and R83
write `0xFFFFFFFF`, the default algorithm's start value and final xor; that another build has its own start value, step and
final function is the model's choice (log entry 2). -/
def Obligations.ChecksumOfAByteSequence : Prop :=
  (∀ alg : CrcAlg, crcAcc alg [] = alg.init) ∧
  (∀ (alg : CrcAlg) (bytes : List Byte) (b : Byte), crcAcc alg (bytes ++ [b]) = crcStep alg (crcAcc alg bytes) b) ∧
  (∀ (alg : CrcAlg) (bytes : List Byte), crc alg bytes = crcFinal alg (crcAcc alg bytes)) ∧
  (∀ (alg : CrcAlg) (v acc : Word), alg.final = .xor v → crcFinal alg acc = acc ^^^ v) ∧
  CrcAlg.isoHdlc.init = 0xFFFFFFFF#32 ∧ (∀ acc : Word, crcFinal .isoHdlc acc = acc ^^^ 0xFFFFFFFF#32) ∧
  crc .isoHdlc [0x31#8, 0x32#8, 0x33#8, 0x34#8, 0x35#8, 0x36#8, 0x37#8, 0x38#8, 0x39#8] = 0xCBF43926#32 ∧
  crc .isoHdlc [] = 0x00000000#32 ∧ crc .isoHdlc [0x00#8] = 0xD202EF8D#32 ∧
  crc .isoHdlc [0xFF#8] = 0xFF000000#32 ∧ crc .isoHdlc [0x61#8] = 0xE8B7BE43#32 ∧
  crc .isoHdlc [0x00#8, 0x00#8, 0x00#8, 0x00#8] = 0x2144DF1C#32 ∧
  crc .isoHdlc [0xFF#8, 0xFF#8, 0xFF#8, 0xFF#8] = 0xFFFFFFFF#32 ∧
  crc .isoHdlc [0x99#8, 0x04#8, 0x05#8] = 0x19856BE6#32

/-- `CRC_ALG` is open (rests on R10, R28, R87): every function of byte lists that a 32-bit accumulator can compute byte by
byte, `f` with the accumulator `acc`, is the checksum of a legal build, and its `crc_acc` is `acc`. The hypotheses say that
the accumulator after one more byte, and the checksum, are functions of the accumulator. That this is all of what `CRC_ALG`
may be is the model's reading (log entry 2). -/
def Obligations.EveryAccumulatorChecksumIsABuild : Prop :=
  ∀ f acc : List Byte → Word,
    (∀ (s s' : List Byte) (b : Byte), acc s = acc s' → acc (s ++ [b]) = acc (s' ++ [b])) →
    (∀ s s' : List Byte, acc s = acc s' → f s = f s') →
      ∃ P : Params, P.Ok ∧ ∀ s : List Byte, crcAcc P.crc s = acc s ∧ crc P.crc s = f s

/-- The bit-serial step equals the table-driven one, for every algorithm that takes the least significant bit first: the
accumulator moves down a byte and the table is indexed by its low byte xor the byte folded in (rests on R81). -/
def Obligations.CrcStepByTableLookup : Prop :=
  ∀ (alg : CrcAlg) (poly acc : Word) (b : Byte), alg.step = .bitSerial poly .lsbFirst →
    crcStep alg acc b = (acc >>> 8) ^^^ crcStep alg 0#32 (acc.extractLsb' 0 8 ^^^ b)

/-- The stream law (R87): after CKINIT and any commands but CKINIT and FRAME, presented at any tick values, `ACC` is
`crc_acc` of the bytes the CKBYTE commands gave, and a CKRD then returns their checksum. -/
def Obligations.AccIsTheChecksumOfTheBytesFolded : Prop :=
  ∀ (s : State) (cs : List (Instr × Word)) (now : Word),
    (∀ c ∈ cs, c.1.WellFormed ∧ restartsAcc c.1 = false) →
      ∃ t : State, runSteps (cs.length + 1) (s.presented ((.ckinit, now) :: cs)) = .next t ∧
        t.acc = crcAcc s.params.crc (foldedBytes cs) ∧
        exec .ckrd t = .next { t with rspStatus := 0#4, rspValue := crc s.params.crc (foldedBytes cs) }

/-- Agreement of the checksum commands with the framer (R88): what `CKSUM P` returns is what `SEND P` leaves in the first
four buffer bytes, most significant first, and sends. -/
def Obligations.CksumAgreesWithSend : Prop :=
  ∀ (s s' : State) (P : List Byte) (now now' : Word), s'.params = s.params → s.params.Ok →
    P.length ≤ s.params.maxLen →
      ∃ t u : State,
        runSteps (cksum P).length (s.presented (allAt now (cksum P))) = .next t ∧
        runSteps (send P).length (s'.presented (allAt now' (send P))) = .next u ∧
        t.rspStatus = 0#4 ∧ u.rspStatus = 0#4 ∧
        u.buf.read 0 = t.rspValue.extractLsb' 24 8 ∧ u.buf.read 1 = t.rspValue.extractLsb' 16 8 ∧
        u.buf.read 2 = t.rspValue.extractLsb' 8 8 ∧ u.buf.read 3 = t.rspValue.extractLsb' 0 8 ∧
        u.tx = s'.tx ++ frameText s.params
          ([t.rspValue.extractLsb' 24 8, t.rspValue.extractLsb' 16 8, t.rspValue.extractLsb' 8 8,
            t.rspValue.extractLsb' 0 8] ++ P)

/-! ### The timer scheduler -/

/-- TDUE (R101): BAD_TIMER, its four branches, and its words. -/
def Obligations.TdueChecksAndRearms : Prop :=
  (∀ (s : State) (t : Nat), s.timers.length ≤ t →
    exec (.tdue t) s = .next { s with rspStatus := 3#4, rspValue := 0#32 }) ∧
  (∀ (s : State) (t : Nat) (T : Timer), s.timers[t]? = some T →
    (T.fff = true →
      exec (.tdue t) s = .next { s with
        timers := s.timers.set t { next := s.now + T.interval, interval := T.interval, fff := false },
        rspStatus := 0#4, rspValue := 1#32 }) ∧
    (T.fff = false → T.next < 0x80000000#32 ∧ 0x80000000#32 ≤ s.now →
      exec (.tdue t) s = .next { s with rspStatus := 0#4, rspValue := 0#32 }) ∧
    (T.fff = false → ¬ (T.next < 0x80000000#32 ∧ 0x80000000#32 ≤ s.now) → T.next ≤ s.now →
      exec (.tdue t) s = .next { s with
        timers := s.timers.set t { next := s.now + T.interval, interval := T.interval, fff := false },
        rspStatus := 0#4, rspValue := 1#32 }) ∧
    (T.fff = false → ¬ (T.next < 0x80000000#32 ∧ 0x80000000#32 ≤ s.now) → s.now < T.next →
      exec (.tdue t) s = .next { s with rspStatus := 0#4, rspValue := 0#32 })) ∧
  (∀ t : Nat, t ≤ 65535 → (encode (.tdue t)).toNat = 0x04000000 + t * 0x100) ∧
  ∀ w : Word, w.extractLsb' 24 8 = 0x04#8 →
    decode w = if w.extractLsb' 0 8 = 0#8 then .ok (.tdue (w.extractLsb' 8 16).toNat) else .error .reservedField

/-- The first check of a timer after reset is due at every tick value, for every interval and every unspecified deadline,
and arms the timer (R106): in every state that a run from a launch state reaches without a TDUE of that timer, whatever other
command was presented since, checks of the other timers included; `k = 0` is the launch state itself. -/
def Obligations.FirstCheckAfterResetFires : Prop :=
  ∀ (s s' : State) (k t : Nat) (I : Word), Launch s → runSteps k s = .next s' →
    (∀ x ∈ s.pending.take k, x.isOtherThanCheckOf t = true) → s.params.intervals[t]? = some I → ∀ now : Word,
    exec (.tdue t) { s' with now := now } = .next { s' with
      now := now, timers := s'.timers.set t { next := now + I, interval := I, fff := false },
      rspStatus := 0#4, rspValue := 1#32 } ∧
    (I = 0#32 → now + I = now)

/-- The same-half form of the due test (R104). -/
def Obligations.DueExactlyInTheSameHalf : Prop :=
  ∀ (s : State) (t : Nat) (T : Timer), s.timers[t]? = some T → T.fff = false →
    ∃ u : State, exec (.tdue t) s = .next u ∧ u.rspStatus = 0#4 ∧
      u.rspValue =
        if s.now.getLsbD 31 = T.next.getLsbD 31 ∧ T.next.extractLsb' 0 31 ≤ s.now.extractLsb' 0 31 then 1#32
        else 0#32

/-- The window form of the due test (R105), and the window's size. -/
def Obligations.DueExactlyInTheWindow : Prop :=
  (∀ (s : State) (t : Nat) (T : Timer), s.timers[t]? = some T → T.fff = false →
    ∃ u : State, exec (.tdue t) s = .next u ∧ u.rspStatus = 0#4 ∧
      (InWindow T.next s.now → u.rspValue = 1#32) ∧ (¬ InWindow T.next s.now → u.rspValue = 0#32)) ∧
  (∀ next x : Word, next.toNat < 2 ^ 31 → (InWindow next x ↔ next.toNat ≤ x.toNat ∧ x.toNat < 2 ^ 31)) ∧
  (∀ next x : Word, 2 ^ 31 ≤ next.toNat → (InWindow next x ↔ next.toNat ≤ x.toNat ∧ x.toNat < 2 ^ 32)) ∧
  ∀ next : Word, 1 ≤ windowEnd next - next.toNat ∧ windowEnd next - next.toNat ≤ 2 ^ 31 ∧
    (windowEnd next - next.toNat = 1 ↔ next = 0x7FFFFFFF#32 ∨ next = 0xFFFFFFFF#32) ∧
    (windowEnd next - next.toNat = 2 ^ 31 ↔ next = 0x00000000#32 ∨ next = 0x80000000#32)

/-- No early fire (R107): with an interval of at most `2^31`, a check `d` ticks after a fire, `d` below the interval, is not
due and writes nothing. With the two larger intervals of the rule the check one tick later is due. -/
def Obligations.NoFireBeforeTheIntervalEnds : Prop :=
  (∀ (s u s' : State) (t : Nat) (T : Timer) (d : Nat), s.timers[t]? = some T → T.interval.toNat ≤ 2 ^ 31 →
    exec (.tdue t) s = .next u → u.rspStatus = 0#4 → u.rspValue = 1#32 →
    s'.timers[t]? = u.timers[t]? → d < T.interval.toNat → s'.now = s.now + BitVec.ofNat 32 d →
      u.timers[t]? = some { next := s.now + T.interval, interval := T.interval, fff := false } ∧
      exec (.tdue t) s' = .next { s' with rspStatus := 0#4, rspValue := 0#32 }) ∧
  ∀ (s u s' : State) (t : Nat) (T : Timer), s.timers[t]? = some T →
    (s.now = 0xF0000000#32 ∧ T.interval = 0x90000001#32 ∨ s.now = 0x10000000#32 ∧ T.interval = 0xF8000000#32) →
    exec (.tdue t) s = .next u → u.rspStatus = 0#4 → u.rspValue = 1#32 →
    s'.timers[t]? = u.timers[t]? → s'.now = s.now + 1#32 →
      u.timers[t]? = some { next := s.now + T.interval, interval := T.interval, fff := false } ∧
      ∃ v : State, exec (.tdue t) s' = .next v ∧ v.rspStatus = 0#4 ∧ v.rspValue = 1#32

/-- The due test as lateness (rests on R108): a check `e` ticks after the deadline is due exactly while the deadline's own
half lasts; for the last tick of the low half only the exact tick fires. -/
def Obligations.DueExactlyWhileLateWithinTheHalf : Prop :=
  (∀ (s : State) (t : Nat) (T : Timer) (e : Nat), s.timers[t]? = some T → T.fff = false → e < 2 ^ 32 →
    s.now = T.next + BitVec.ofNat 32 e →
    ∃ u : State, exec (.tdue t) s = .next u ∧ u.rspStatus = 0#4 ∧
      u.rspValue =
        if e < (if T.next.toNat < 2 ^ 31 then 2 ^ 31 - T.next.toNat else 2 ^ 32 - T.next.toNat) then 1#32 else 0#32) ∧
  ∀ (s : State) (t : Nat) (T : Timer), s.timers[t]? = some T → T.fff = false → T.next = 0x7FFFFFFF#32 →
    ∃ u : State, exec (.tdue t) s = .next u ∧ u.rspValue = if s.now = 0x7FFFFFFF#32 then 1#32 else 0#32

/-- The boundary table of R109: for each row, the deadline, the tick value, the due bit and the deadline after, all with
`fff = 0` and interval `0x3E8`. -/
def Obligations.BoundaryTableOfTheDueTest : Prop :=
  ∀ (s : State) (t : Nat) (next now after : Word) (due : Bool),
    (next, now, due, after) ∈
      [(0x7FFFFFFF#32, 0x7FFFFFFE#32, false, 0x7FFFFFFF#32), (0x7FFFFFFF#32, 0x7FFFFFFF#32, true, 0x800003E7#32),
        (0x7FFFFFFF#32, 0x80000000#32, false, 0x7FFFFFFF#32), (0x7FFFFFFF#32, 0xFFFFFFFF#32, false, 0x7FFFFFFF#32),
        (0x7FFFFFFF#32, 0x00000000#32, false, 0x7FFFFFFF#32), (0x80000000#32, 0x7FFFFFFF#32, false, 0x80000000#32),
        (0x80000000#32, 0x80000000#32, true, 0x800003E8#32), (0x00000000#32, 0x00000000#32, true, 0x000003E8#32),
        (0x00000000#32, 0x7FFFFFFF#32, true, 0x800003E7#32), (0x00000000#32, 0x80000000#32, false, 0x00000000#32),
        (0xFFFFFFFF#32, 0xFFFFFFFE#32, false, 0xFFFFFFFF#32), (0xFFFFFFFF#32, 0xFFFFFFFF#32, true, 0x000003E7#32),
        (0xFFFFFFFF#32, 0x00000000#32, false, 0xFFFFFFFF#32), (0xFFFFFC18#32, 0xFFFFFC18#32, true, 0x00000000#32),
        (0x7FFFFC18#32, 0x7FFFFC18#32, true, 0x80000000#32), (0x00000064#32, 0xFFFFFF00#32, false, 0x00000064#32),
        (0x00000064#32, 0x00000064#32, true, 0x0000044C#32), (0x80000010#32, 0x00000005#32, false, 0x80000010#32)] →
    s.timers[t]? = some { next := next, interval := 0x3E8#32, fff := false } → s.now = now →
      ∃ u : State, exec (.tdue t) s = .next u ∧ u.rspStatus = 0#4 ∧ u.rspValue = (if due then 1#32 else 0#32) ∧
        u.timers[t]? = some { next := after, interval := 0x3E8#32, fff := false }

/-- Repeated checks (rests on R110): with an interval from 1 to `2^31` a second check at the same tick value is not due;
with interval 0 the deadline becomes that tick value, and a later check is due exactly in its window. -/
def Obligations.RepeatedChecksAndZeroInterval : Prop :=
  ∀ (s u : State) (t : Nat) (T : Timer), s.timers[t]? = some T → exec (.tdue t) s = .next u →
    u.rspStatus = 0#4 → u.rspValue = 1#32 →
    (1 ≤ T.interval.toNat → T.interval.toNat ≤ 2 ^ 31 → ∀ s' : State, s'.timers[t]? = u.timers[t]? → s'.now = s.now →
      exec (.tdue t) s' = .next { s' with rspStatus := 0#4, rspValue := 0#32 }) ∧
    (T.interval = 0#32 → ∀ s' : State, s'.timers[t]? = u.timers[t]? →
      ∃ v : State, exec (.tdue t) s' = .next v ∧ v.rspStatus = 0#4 ∧
        (InWindow s.now s'.now → v.rspValue = 1#32) ∧ (¬ InWindow s.now s'.now → v.rspValue = 0#32))

/-- Independence of the timers (R111): a TDUE of `t` leaves record `u` as it is and does not look at it, and the order of
two checks at one tick value changes neither a response nor a record. -/
def Obligations.TimersAreIndependent : Prop :=
  ∀ (s : State) (t u : Nat), t ≠ u →
    (∃ a b c d : State, exec (.tdue t) s = .next a ∧ exec (.tdue u) a = .next b ∧
      exec (.tdue u) s = .next c ∧ exec (.tdue t) c = .next d ∧
      a.timers[u]? = s.timers[u]? ∧ b.timers = d.timers ∧
      a.rspStatus = d.rspStatus ∧ a.rspValue = d.rspValue ∧ c.rspStatus = b.rspStatus ∧ c.rspValue = b.rspValue) ∧
    ∀ X : Timer, ∃ a d : State, exec (.tdue t) s = .next a ∧
      exec (.tdue t) { s with timers := s.timers.set u X } = .next d ∧
      d.timers = a.timers.set u X ∧ a.rspStatus = d.rspStatus ∧ a.rspValue = d.rspValue

/-- Over every step that is no reset, the number of timers and every interval stay (rests on R23, R25), a cleared `fff`
stays cleared (R27, R35), and a record changes only by a TDUE of its own index (R23, R100). -/
def Obligations.TimerRecordsChangeByTheirOwnCheckOnly : Prop :=
  ∀ (s s' : State), step s = .next s' → (∀ (d : LaunchInput) (rest : List HostInput), s.pending ≠ .reset d :: rest) →
    s'.timers.map Timer.interval = s.timers.map Timer.interval ∧
    ∀ (t : Nat) (T T' : Timer), s.timers[t]? = some T → s'.timers[t]? = some T' →
      (T.fff = false → T'.fff = false) ∧
      (T' ≠ T → ∃ (w now : Word) (rest : List HostInput), s.pending = .command w now :: rest ∧
        decode w = .ok (.tdue t) ∧ T' = { next := now + T.interval, interval := T.interval, fff := false })

/-- The invariant of a timer record (R27), over every run from a launch state without a reset: a TDUE of `t` that ends
with status 0 leaves `fff` clear; `fff` is set exactly while no check of `t` was due; and once one was, the deadline is the
tick value of the latest due check plus the interval of the build, modulo `2^32`. -/
def Obligations.DeadlineIsTheLatestDueCheckPlusInterval : Prop :=
  (∀ (s s' : State) (w now : Word) (rest : List HostInput) (t : Nat), s.pending = .command w now :: rest →
    decode w = .ok (.tdue t) → step s = .next s' → s'.rspStatus = 0#4 →
      ∃ T : Timer, s'.timers[t]? = some T ∧ T.fff = false) ∧
  ∀ (s s' : State) (k t : Nat) (T : Timer), Launch s → (∀ x ∈ s.pending, x.isCommand = true) →
    runSteps k s = .next s' → s'.timers[t]? = some T →
      s.params.intervals[t]? = some T.interval ∧
      (lastDue t k s = none → T.fff = true) ∧
      ∀ n : Word, lastDue t k s = some n → T.fff = false ∧ T.next = n + T.interval

/-! ### The payload buffer -/

/-- BUFWR (R121): its effect, the bytes after it, BAD_ADDRESS, and its word. -/
def Obligations.BufwrStoresOneByte : Prop :=
  (∀ (s : State) (a : Nat) (b : Byte), a < s.params.maxLen + 4 →
    exec (.bufwr a b) s = .next { s with buf := s.buf.write a b, rspStatus := 0#4, rspValue := 0#32 } ∧
    (∀ x : Nat, (s.buf.write a b).read x = if x = a then b else s.buf.read x) ∧
    (s.buf.wf → s.buf.read a = b → s.buf.write a b = s.buf)) ∧
  (∀ (s : State) (a : Nat) (b : Byte), s.params.maxLen + 4 ≤ a →
    exec (.bufwr a b) s = .next { s with rspStatus := 4#4, rspValue := 0#32 }) ∧
  (∀ (a : Nat) (b : Byte), a ≤ 65535 → (encode (.bufwr a b)).toNat = 0x05000000 + a * 0x100 + b.toNat) ∧
  ∀ w : Word, w.extractLsb' 24 8 = 0x05#8 →
    decode w = .ok (.bufwr (w.extractLsb' 8 16).toNat (w.extractLsb' 0 8))

/-- BUFRD (R122): its effect, BAD_ADDRESS, its words, and that after a FRAME addresses 0 to 3 return the checksum bytes,
most significant first. -/
def Obligations.BufrdReturnsOneByte : Prop :=
  (∀ (s : State) (a : Nat), a < s.params.maxLen + 4 →
    exec (.bufrd a) s = .next { s with rspStatus := 0#4, rspValue := (s.buf.read a).setWidth 32 }) ∧
  (∀ (s : State) (a : Nat), s.params.maxLen + 4 ≤ a →
    exec (.bufrd a) s = .next { s with rspStatus := 4#4, rspValue := 0#32 }) ∧
  (∀ (s t : State) (n a : Nat) (v : Byte), n ≤ s.params.maxLen → exec (.frame n) s = .next t →
    (let c := crc s.params.crc ((List.range n).map (fun i => s.buf.read (4 + i)))
     (a, v) ∈ [(0, c.extractLsb' 24 8), (1, c.extractLsb' 16 8), (2, c.extractLsb' 8 8), (3, c.extractLsb' 0 8)]) →
      exec (.bufrd a) t = .next { t with rspStatus := 0#4, rspValue := v.setWidth 32 }) ∧
  (∀ a : Nat, a ≤ 65535 → (encode (.bufrd a)).toNat = 0x06000000 + a * 0x100) ∧
  ∀ w : Word, w.extractLsb' 24 8 = 0x06#8 →
    decode w = if w.extractLsb' 0 8 = 0#8 then .ok (.bufrd (w.extractLsb' 8 16).toNat) else .error .reservedField

/-- The word store is big-endian (R44): four byte writes, the most significant byte first, and no other byte. -/
def Obligations.WordStoreIsBigEndian : Prop :=
  ∀ (m : Memory) (a : Nat) (v : Word),
    (m.writeWord a v).read a = v.extractLsb' 24 8 ∧ (m.writeWord a v).read (a + 1) = v.extractLsb' 16 8 ∧
    (m.writeWord a v).read (a + 2) = v.extractLsb' 8 8 ∧ (m.writeWord a v).read (a + 3) = v.extractLsb' 0 8 ∧
    ∀ x : Nat, (x < a ∨ a + 4 ≤ x) → (m.writeWord a v).read x = m.read x

/-! ### The framer -/

/-- The hex digit and the hex byte (R132, R133): the codes of the digits in both cases, the high nibble first, and a
leading `0` for the values 0 to 15. -/
def Obligations.HexDigitsAndBytes : Prop :=
  (∀ (c : HexCase) (v : BitVec 4), v.toNat < 10 → (hexDigit c v).toNat = 0x30 + v.toNat) ∧
  (∀ v : BitVec 4, 10 ≤ v.toNat → (hexDigit .upper v).toNat = 0x41 + v.toNat - 10 ∧
    (hexDigit .lower v).toNat = 0x61 + v.toNat - 10) ∧
  (∀ (c : HexCase) (b : Byte),
    hexByte c b = [hexDigit c (b.extractLsb' 4 4), hexDigit c (b.extractLsb' 0 4)]) ∧
  (∀ (c : HexCase) (b : Byte), b.toNat ≤ 15 → (hexByte c b).head? = some 0x30#8) ∧
  hexByte .upper 0x00#8 = [0x30#8, 0x30#8] ∧ hexByte .upper 0x0F#8 = [0x30#8, 0x46#8] ∧
  hexByte .upper 0x10#8 = [0x31#8, 0x30#8] ∧ hexByte .upper 0xA5#8 = [0x41#8, 0x35#8] ∧
  hexByte .upper 0xFF#8 = [0x46#8, 0x46#8]

/-- The text of a frame and its length (R134). -/
def Obligations.FrameTextAndItsLength : Prop :=
  ∀ (P : Params) (D : List Byte),
    frameText P D = [0x7B#8, 0x7B#8, 0x7B#8] ++ D.flatMap (hexByte P.hexCase) ++ [0x7D#8, 0x7D#8, 0x7D#8] ++ P.lineTerm ∧
    (frameText P D).length = 2 * D.length + 6 + P.lineTerm.length ∧ Params.default.lineTerm = [0x0A#8]

/-- FRAME (rests on R135): its effect on `ACC`, `BUF` and `TX`, BAD_LENGTH, its words, and the rule's example. R135 starts
`ACC` at `0xFFFFFFFF` and ends with xor `0xFFFFFFFF`, which are the default algorithm's; that FRAME uses the start value, step
and final function of the build's own algorithm is the model's choice (log entry 2). -/
def Obligations.FrameChecksumsStoresAndSends : Prop :=
  (∀ (s : State) (n : Nat), n ≤ s.params.maxLen →
    let P := (List.range n).map (fun i => s.buf.read (4 + i))
    let c := crcFinal s.params.crc (crcAcc s.params.crc P)
    let C := [c.extractLsb' 24 8, c.extractLsb' 16 8, c.extractLsb' 8 8, c.extractLsb' 0 8]
    (s.params.crc = .isoHdlc →
      crcAcc s.params.crc P = P.foldl (crcStep .isoHdlc) 0xFFFFFFFF#32 ∧ c = crcAcc s.params.crc P ^^^ 0xFFFFFFFF#32) ∧
    exec (.frame n) s = .next { s with
      acc := crcAcc s.params.crc P,
      buf := (((s.buf.write 0 (c.extractLsb' 24 8)).write 1 (c.extractLsb' 16 8)).write 2 (c.extractLsb' 8 8)).write 3
        (c.extractLsb' 0 8),
      tx := s.tx ++ frameText s.params (C ++ P), rspStatus := 0#4, rspValue := 0#32 }) ∧
  (∀ (s : State) (n : Nat), s.params.maxLen < n →
    exec (.frame n) s = .next { s with rspStatus := 5#4, rspValue := 0#32 }) ∧
  (∀ n : Nat, n ≤ 65535 → (encode (.frame n)).toNat = 0x07000000 + n * 0x100) ∧
  (∀ w : Word, w.extractLsb' 24 8 = 0x07#8 →
    decode w = if w.extractLsb' 0 8 = 0#8 then .ok (.frame (w.extractLsb' 8 16).toNat) else .error .reservedField) ∧
  ∀ s : State, s.params = Params.default →
    s.buf.read 4 = 0x47#8 → s.buf.read 5 = 0x50#8 → s.buf.read 6 = 0x49#8 → s.buf.read 7 = 0x4F#8 →
    s.buf.read 8 = 0x15#8 →
      ∃ t : State, exec (.frame 5) s = .next t ∧ t.acc = 0x7D748277#32 ∧
        t.buf.read 0 = 0x82#8 ∧ t.buf.read 1 = 0x8B#8 ∧ t.buf.read 2 = 0x7D#8 ∧ t.buf.read 3 = 0x88#8 ∧
        t.tx = s.tx ++ [0x7B#8, 0x7B#8, 0x7B#8, 0x38#8, 0x32#8, 0x38#8, 0x42#8, 0x37#8, 0x44#8, 0x38#8, 0x38#8, 0x34#8,
          0x37#8, 0x35#8, 0x30#8, 0x34#8, 0x39#8, 0x34#8, 0x46#8, 0x31#8, 0x35#8, 0x7D#8, 0x7D#8, 0x7D#8, 0x0A#8]

/-- `ACC` after a FRAME, and a CKRD right after it returns the checksum the frame carries (R136). -/
def Obligations.CkrdAfterFrameReturnsItsChecksum : Prop :=
  ∀ (s : State) (n : Nat), n ≤ s.params.maxLen →
    ∃ t u : State, exec (.frame n) s = .next t ∧ exec .ckrd t = .next u ∧
      t.acc = crcAcc s.params.crc ((List.range n).map (fun i => s.buf.read (4 + i))) ∧
      u.rspStatus = 0#4 ∧ u.rspValue = crc s.params.crc ((List.range n).map (fun i => s.buf.read (4 + i))) ∧
      t.buf.readBytes 0 4 = bigEndian u.rspValue ∧
      t.tx = s.tx ++ frameText s.params
        (bigEndian u.rspValue ++ (List.range n).map (fun i => s.buf.read (4 + i)))

/-- The smallest and the largest length (R138): the frame of no bytes with the default algorithm; `n = MAXLEN` runs, and
reads up to the last byte of `BUF`; `n = MAXLEN + 1` fails and nothing is sent. -/
def Obligations.SmallestAndLargestFrame : Prop :=
  (∀ s : State, s.params.crc = .isoHdlc →
    ∃ t : State, exec (.frame 0) s = .next t ∧ t.rspStatus = 0#4 ∧ t.acc = 0xFFFFFFFF#32 ∧
      t.buf.readBytes 0 4 = [0x00#8, 0x00#8, 0x00#8, 0x00#8] ∧
      t.tx = s.tx ++ ([0x7B#8, 0x7B#8, 0x7B#8, 0x30#8, 0x30#8, 0x30#8, 0x30#8, 0x30#8, 0x30#8, 0x30#8, 0x30#8,
        0x7D#8, 0x7D#8, 0x7D#8] ++ s.params.lineTerm)) ∧
  (∀ s : State, ∃ t : State, exec (.frame s.params.maxLen) s = .next t ∧ t.rspStatus = 0#4 ∧
    t.tx = s.tx ++ wireFrame s.params (s.buf.readBytes 4 s.params.maxLen) ∧
    4 + s.params.maxLen = s.params.bufSize) ∧
  ∀ s : State, exec (.frame (s.params.maxLen + 1)) s = .next { s with rspStatus := 5#4, rspValue := 0#32 }

/-- FRAME uses whatever the payload bytes hold and nothing else of the buffer: two states of one build that agree on the
payload bytes send the same bytes, whatever the first four bytes, the other bytes, the timers, `ACC` and the ports hold;
and a second FRAME of the same length sends the same frame again and leaves `ACC` and `BUF` as they are (R139). -/
def Obligations.FrameDependsOnThePayloadOnly : Prop :=
  (∀ (s s' : State) (n : Nat), s'.params = s.params → n ≤ s.params.maxLen →
    (∀ x : Nat, 4 ≤ x → x < 4 + n → s'.buf.read x = s.buf.read x) →
      ∃ (t t' : State) (F : List Byte), exec (.frame n) s = .next t ∧ exec (.frame n) s' = .next t' ∧
        t.tx = s.tx ++ F ∧ t'.tx = s'.tx ++ F ∧ t'.acc = t.acc ∧
        t'.buf.readBytes 0 4 = t.buf.readBytes 0 4) ∧
  ∀ (s : State) (n : Nat), n ≤ s.params.maxLen →
    ∃ (t u : State) (F : List Byte), exec (.frame n) s = .next t ∧ exec (.frame n) t = .next u ∧
      t.tx = s.tx ++ F ∧ u.tx = t.tx ++ F ∧ u.acc = t.acc ∧ ∀ x : Nat, u.buf.read x = t.buf.read x

/-- The framing round trip (R140): stripped of its delimiters and read two characters at a time, what a FRAME sends is the
checksum, most significant byte first, then the payload; and no hex character is a brace or the byte `0x0A`. -/
def Obligations.FramingRoundTrip : Prop :=
  (∀ (s : State) (n : Nat), n ≤ s.params.maxLen →
    ∃ (t : State) (F : List Byte), exec (.frame n) s = .next t ∧ t.tx = s.tx ++ F ∧
      unhex (stripDelims s.params F) =
        some (bigEndian (crc s.params.crc ((List.range n).map (fun i => s.buf.read (4 + i)))) ++
          (List.range n).map (fun i => s.buf.read (4 + i)))) ∧
  ∀ (c : HexCase) (D : List Byte), ∀ b ∈ D.flatMap (hexByte c), b ≠ 0x7B#8 ∧ b ≠ 0x7D#8 ∧ b ≠ 0x0A#8

/-- Right after a FRAME of length `n` bytes 0 to 3 hold the checksum of exactly the `n` bytes that follow (rests on R30,
R47). -/
def Obligations.ChecksumBytesMatchTheBytesAfterThem : Prop :=
  ∀ (s : State) (n : Nat), n ≤ s.params.maxLen →
    ∃ t : State, exec (.frame n) s = .next t ∧
      t.buf.readBytes 0 4 = bigEndian (crc s.params.crc (t.buf.readBytes 4 n)) ∧
      t.buf.readBytes 4 n = s.buf.readBytes 4 n

/-- The worked frames of R142, in the default build, and the third in lower case. -/
def Obligations.WorkedFrames : Prop :=
  crc .isoHdlc [] = 0x00000000#32 ∧ crc .isoHdlc [0x99#8, 0x04#8, 0x05#8] = 0x19856BE6#32 ∧
  crc .isoHdlc [0x47#8, 0x50#8, 0x49#8, 0x4F#8, 0x15#8] = 0x828B7D88#32 ∧
  crc .isoHdlc [0x00#8, 0x0F#8, 0x10#8, 0xFF#8, 0xA5#8] = 0xB7FFEE2E#32 ∧
  wireFrame Params.default [] = [0x7B#8, 0x7B#8, 0x7B#8, 0x30#8, 0x30#8, 0x30#8, 0x30#8, 0x30#8, 0x30#8, 0x30#8, 0x30#8,
    0x7D#8, 0x7D#8, 0x7D#8, 0x0A#8] ∧
  wireFrame Params.default [0x99#8, 0x04#8, 0x05#8] = [0x7B#8, 0x7B#8, 0x7B#8, 0x31#8, 0x39#8, 0x38#8, 0x35#8, 0x36#8,
    0x42#8, 0x45#8, 0x36#8, 0x39#8, 0x39#8, 0x30#8, 0x34#8, 0x30#8, 0x35#8, 0x7D#8, 0x7D#8, 0x7D#8, 0x0A#8] ∧
  wireFrame Params.default [0x47#8, 0x50#8, 0x49#8, 0x4F#8, 0x15#8] = [0x7B#8, 0x7B#8, 0x7B#8, 0x38#8, 0x32#8, 0x38#8,
    0x42#8, 0x37#8, 0x44#8, 0x38#8, 0x38#8, 0x34#8, 0x37#8, 0x35#8, 0x30#8, 0x34#8, 0x39#8, 0x34#8, 0x46#8, 0x31#8,
    0x35#8, 0x7D#8, 0x7D#8, 0x7D#8, 0x0A#8] ∧
  wireFrame Params.default [0x00#8, 0x0F#8, 0x10#8, 0xFF#8, 0xA5#8] = [0x7B#8, 0x7B#8, 0x7B#8, 0x42#8, 0x37#8, 0x46#8,
    0x46#8, 0x45#8, 0x45#8, 0x32#8, 0x45#8, 0x30#8, 0x30#8, 0x30#8, 0x46#8, 0x31#8, 0x30#8, 0x46#8, 0x46#8, 0x41#8,
    0x35#8, 0x7D#8, 0x7D#8, 0x7D#8, 0x0A#8] ∧
  wireFrame { Params.default with hexCase := .lower } [0x47#8, 0x50#8, 0x49#8, 0x4F#8, 0x15#8] = [0x7B#8, 0x7B#8, 0x7B#8,
    0x38#8, 0x32#8, 0x38#8, 0x62#8, 0x37#8, 0x64#8, 0x38#8, 0x38#8, 0x34#8, 0x37#8, 0x35#8, 0x30#8, 0x34#8, 0x39#8,
    0x34#8, 0x66#8, 0x31#8, 0x35#8, 0x7D#8, 0x7D#8, 0x7D#8, 0x0A#8]

/-! ### Frames: what commands leave unchanged -/

/-- CKINIT, CKBYTE, CKRD, TDUE and BUFRD store nothing in `BUF` and send nothing; CKRD, TDUE and BUFRD leave `ACC`; all but
TDUE leave the timer records, and TDUE leaves every record but its own. The build, the `now` port and the host's inputs
stay. -/
def Obligations.NonStoringCommandsKeepBufferAndStream : Prop :=
  ∀ (s t : State) (i : Instr), exec i s = .next t →
    (i = .ckinit ∨ (∃ b, i = .ckbyte b) ∨ i = .ckrd ∨ (∃ u, i = .tdue u) ∨ (∃ a, i = .bufrd a)) →
    (∀ x : Nat, t.buf.read x = s.buf.read x) ∧ t.tx = s.tx ∧
    (i = .ckrd ∨ (∃ u, i = .tdue u) ∨ (∃ a, i = .bufrd a) → t.acc = s.acc) ∧
    ((∀ u, i ≠ .tdue u) → t.timers = s.timers) ∧
    (∀ u x, i = .tdue u → x ≠ u → t.timers[x]? = s.timers[x]?) ∧
    t.params = s.params ∧ t.now = s.now ∧ t.pending = s.pending

/-- BUFWR and FRAME: every byte outside the bytes they store stays (address `a` for BUFWR, addresses 0 to 3 for FRAME, none
for one that fails), and so do the timer records; BUFWR leaves `ACC` and `TX`. The build, the `now` port and the host's
inputs stay. -/
def Obligations.StoringCommandsKeepOtherBytes : Prop :=
  (∀ (s t : State) (a : Nat) (b : Byte), exec (.bufwr a b) s = .next t →
    (∀ x : Nat, x ≠ a → t.buf.read x = s.buf.read x) ∧
    (s.params.maxLen + 4 ≤ a → ∀ x : Nat, t.buf.read x = s.buf.read x) ∧
    t.acc = s.acc ∧ t.tx = s.tx ∧ t.timers = s.timers ∧ t.params = s.params ∧ t.now = s.now ∧
    t.pending = s.pending) ∧
  ∀ (s t : State) (n : Nat), exec (.frame n) s = .next t →
    (∀ x : Nat, 4 ≤ x → t.buf.read x = s.buf.read x) ∧
    (s.params.maxLen < n → (∀ x : Nat, t.buf.read x = s.buf.read x) ∧ t.acc = s.acc ∧ t.tx = s.tx) ∧
    t.timers = s.timers ∧ t.params = s.params ∧ t.now = s.now ∧ t.pending = s.pending

/-! ### The whole machine -/

/-- Every step answers a next state: no command faults, is refused or waits (rests on R180, R184, R223). The model's choices:
a command error is a next state too, though R185 and U14 to U16 of 93_implementation_defined.md call it a refusal at the
boundary (log entry 8); an idle machine has a step (log entry 5), and so has the reset port (log entry 10). -/
def Obligations.EveryStepAnswersANextState : Prop :=
  (∀ (i : Instr) (s : State), ∃ t : State, exec i s = .next t) ∧ ∀ s : State, ∃ t : State, step s = .next t

/-- Only TDUE reads the `now` port: every other command does the same at every tick value (rests on R33, R195). -/
def Obligations.OnlyTdueReadsTheClock : Prop :=
  ∀ (i : Instr) (s t : State) (now : Word), (∀ u : Nat, i ≠ .tdue u) → exec i s = .next t →
    exec i { s with now := now } = .next { t with now := now }

/-- No step changes the parameters: they are fixed before reset and never change (rests on R10). The model's choices: the
build stands in State (log entry 1), and an idle machine and the reset port have a step (log entries 5 and 10). -/
def Obligations.ParametersNeverChange : Prop :=
  ∀ (k : Nat) (s s' : State), runSteps k s = .next s' → s'.params = s.params

/-- Every step keeps the machine's invariant: the build legal, one record with the build's interval for each timer, the
buffer in canonical form inside its address space, whole frames on the stream, a legal response. The model's choices: the
canonical form (log entry 4), the response held on its ports and (0, 0) there after reset (log entry 6), a step of the idle
machine (log entry 5) and of the reset port (log entry 10). -/
def Obligations.EveryStepKeepsTheInvariant : Prop :=
  ∀ s s' : State, Inv s → step s = .next s' → Inv s'

/-- The invariant holds at every launch state of a legal build and at the model's reset state. The model's choices: the
response ports read (0, 0) there, which is what makes their response legal (log entry 6), and the intervals, buffer bytes and
deadlines of `State.reset` (log entries 3, 4 and 7). -/
def Obligations.LaunchStatesMeetTheInvariant : Prop :=
  (∀ (P : Params) (d : LaunchInput), P.Ok → Inv (State.launch P d)) ∧ Inv State.reset

/-- `TX` holds the frames of the FRAME commands that ran, whole and in the order of the commands (R32, R53). -/
def Obligations.StreamIsTheFramesInCommandOrder : Prop :=
  ∀ (k : Nat) (s s' : State), (∀ x ∈ s.pending, x.isCommand = true) → runSteps k s = .next s' →
    s'.tx = s.tx ++ (framedPayloads k s).flatMap (wireFrame s.params)

/-- The state after reset, for every content reset leaves unspecified (R210): `fff` set, the build's intervals, `ACC` at
its reset value, `TX` empty, and any deadlines and any buffer bytes at all. -/
def Obligations.ResetValues : Prop :=
  ∀ (P : Params) (d : LaunchInput), d.nexts.length = P.nTimers → d.bytes.length = P.bufSize →
    (State.launch P d).timers.length = P.nTimers ∧
    (∀ (t : Nat) (I next : Word), P.intervals[t]? = some I → d.nexts[t]? = some next →
      (State.launch P d).timers[t]? = some { next := next, interval := I, fff := true }) ∧
    (P.crc = .isoHdlc → (State.launch P d).acc = 0xFFFFFFFF#32) ∧
    (State.launch P d).tx = [] ∧
    ∀ (a : Nat) (b : Byte), d.bytes[a]? = some b → (State.launch P d).buf.read a = b

/-- The reset port gives a launch state of the same build whatever ran before (rests on R33, R210, R211). The model's
choices: that reset has a step and what of the host's stays (log entry 10), what the response ports then read (log entry 6),
and `ACC` at the start value of an algorithm that is not the default (log entry 2). -/
def Obligations.ResetPortRelaunches : Prop :=
  ∀ (s : State) (d : LaunchInput) (rest : List HostInput), s.pending = .reset d :: rest →
    step s = .next { State.launch s.params d with now := s.now, pending := rest }

/-- The launch states a claim quantifies over (rests on R212) are exactly the reset states over all unspecified contents, up
to what the ports carry, with `ACC` at `0xFFFFFFFF` in the default algorithm. The model's choices: `ACC` starts at the build's
own start value in another algorithm (log entry 2), and what the ports read after reset (log entry 6). -/
def Obligations.LaunchStatesAreTheResetStates : Prop :=
  (∀ (P : Params) (d : LaunchInput), P.Ok → Launch (State.launch P d)) ∧
  ∀ s : State, Launch s → (∃ d : LaunchInput,
    s = { State.launch s.params d with
      now := s.now, rspStatus := s.rspStatus, rspValue := s.rspValue, pending := s.pending }) ∧
    (s.params.crc = .isoHdlc → s.acc = 0xFFFFFFFF#32)

/-- With nothing presented CORE is idle and keeps all its state (rests on R200). That there is then a step at all, an idle
one, is the model's choice (log entry 5), and so is that the response ports and the `now` port keep what they carry (log
entry 6). -/
def Obligations.IdleKeepsAllState : Prop :=
  ∀ s : State, s.pending = [] → step s = .next s

/-- The word placed for the next fetch is the next one to run, at the tick value the `now` port carries (log entry 5). -/
def Obligations.PlacedWordRunsNext : Prop :=
  ∀ (s : State) (w : Nat) (i : Instr), decodeTableWord 32 w = some i → step (s.withFetchWord 32 w) = exec i s

/-! ### The host's software -/

/-- The Input Sampler (R154): bit `i` is set exactly when line `i` is high, and the rule's example. -/
def Obligations.SampleMaskBits : Prop :=
  (∀ lines : List Bool, lines.length = 8 → ∀ i : Nat, i < 8 → (sampleMask lines).getLsbD i = lines.getD i false) ∧
    sampleMask [true, false, true, false, true, false, false, false] = 0x15#8

/-- The advertisement filter and its commands (rests on R155, R156): an advertisement that fits `MAXLEN` is framed exactly
when it is longer than 2 bytes and begins with the signature; a dropped one, or none, causes no FRAME. That one above
`MAXLEN` causes no command at all is the model's choice of host (log entry 12). -/
def Obligations.FilterForwardsTheSignature : Prop :=
  (∀ M : List Byte, forwards M = true ↔
    (2 < M.length ∧ M[0]? = some 0x99#8 ∧ M[1]? = some 0x04#8 ∧ M[2]? = some 0x05#8)) ∧
  (∀ (maxLen : Nat) (M : List Byte), M.length ≤ maxLen → forwards M = true →
    advertPoll maxLen (some M) = send M) ∧
  (∀ (maxLen : Nat) (M : List Byte), maxLen < M.length → advertPoll maxLen (some M) = []) ∧
  (∀ (maxLen : Nat) (M : List Byte) (n : Nat), forwards M = false → .frame n ∉ advertPoll maxLen (some M)) ∧
  ∀ maxLen : Nat, advertPoll maxLen none = []
end

