-- ==== Sys2Proof/Laws/Memory.lean ====
section
/-! SUPPORT. The laws of the buffer memory: what a read gives after a write, that every operation keeps the canonical form
and stays inside the buffer, and that equal contents are equal data. -/
namespace Sys2Proof.Machine
open Sys2Proof

namespace Memory

@[simp] theorem read_nil (a : Nat) : Memory.read [] a = unlisted a := rfl

theorem read_cons (c : Host.Cell) (m : Memory) (a : Nat) :
    Memory.read (c :: m) a = if c.1 = a then c.2 else m.read a := rfl

theorem read_of_not_listed (m : Memory) (a : Nat) (h : ∀ c ∈ m, c.1 ≠ a) : m.read a = unlisted a := by
  induction m with
  | nil => rfl
  | cons c rest ih =>
    rw [read_cons, if_neg (h c (by simp)), ih (fun d hd => h d (by simp [hd]))]

theorem mem_erase {m : Memory} {a : Nat} {c : Host.Cell} : c ∈ m.erase a ↔ c ∈ m ∧ c.1 ≠ a := by
  simp [Memory.erase]

theorem read_erase (m : Memory) (a x : Nat) :
    (m.erase a).read x = if x = a then unlisted x else m.read x := by
  by_cases h : x = a
  · rw [if_pos h]
    exact read_of_not_listed _ _ (fun c hc => h ▸ (mem_erase.1 hc).2)
  · rw [if_neg h]
    induction m with
    | nil => rfl
    | cons c rest ih =>
      by_cases hc : c.1 = a
      · rw [read_cons, if_neg (fun e : c.1 = x => h (e.symm.trans hc)), ← ih]
        simp [Memory.erase, hc]
      · simp only [Memory.erase, ne_eq, hc, not_false_eq_true, decide_true, List.filter_cons_of_pos, read_cons]
        rw [show List.filter (fun c => decide (¬c.1 = a)) rest = Memory.erase rest a from rfl, ih]

theorem mem_insert {m : Memory} {a : Nat} {v : Byte} {c : Host.Cell} :
    c ∈ Memory.insert a v m ↔ c = (a, v) ∨ c ∈ m := by
  induction m with
  | nil => simp [Memory.insert]
  | cons d rest ih =>
    by_cases h : a < d.1
    · simp [Memory.insert, h]
    · simp only [Memory.insert, h, if_false, List.mem_cons, ih]
      tauto

theorem read_insert (m : Memory) (a x : Nat) (v : Byte) (h : ∀ c ∈ m, c.1 ≠ a) :
    (Memory.insert a v m).read x = if x = a then v else m.read x := by
  induction m with
  | nil => simp [Memory.insert, read_cons, eq_comm]
  | cons d rest ih =>
    by_cases hd : a < d.1
    · simp [Memory.insert, hd, read_cons, eq_comm]
    · simp only [Memory.insert, hd, if_false, read_cons, ih (fun c hc => h c (by simp [hc]))]
      have := h d (by simp)
      by_cases hx : x = a
      · simp [hx, this]
      · simp [hx]

/-- A read after a write: the byte written at the address written, every other byte as before. -/
@[simp] theorem read_write (m : Memory) (a x : Nat) (v : Byte) :
    (m.write a v).read x = if x = a then v else m.read x := by
  unfold Memory.write
  split
  · rename_i hv
    rw [read_erase]
    by_cases h : x = a
    · subst h
      simp [hv]
    · simp [h]
  · rw [read_insert _ _ _ _ (fun c hc => (mem_erase.1 hc).2), read_erase]
    by_cases h : x = a <;> simp [h]

theorem insert_wf (m : Memory) (a : Nat) (v : Byte) (hm : m.wf) (h : ∀ c ∈ m, c.1 ≠ a) (hv : v ≠ unlisted a) :
    (Memory.insert a v m).wf := by
  refine ⟨?_, fun c hc => ?_⟩
  · obtain ⟨hp, -⟩ := hm
    induction m with
    | nil => simp [Memory.insert]
    | cons d rest ih =>
      obtain ⟨hd, hr⟩ := List.pairwise_cons.1 hp
      by_cases hlt : a < d.1
      · simp only [Memory.insert, hlt, if_true]
        exact List.pairwise_cons.2 ⟨fun c hc => by
          rcases List.mem_cons.1 hc with rfl | hc
          · exact hlt
          · exact hlt.trans (hd c hc), hp⟩
      · simp only [Memory.insert, hlt, if_false]
        refine List.pairwise_cons.2 ⟨fun c hc => ?_, ih (fun c hc => h c (by simp [hc])) hr⟩
        rcases mem_insert.1 hc with rfl | hc
        · exact lt_of_le_of_ne (not_lt.1 hlt) (h d (by simp))
        · exact hd c hc
  · rcases mem_insert.1 hc with rfl | hc
    · exact hv
    · exact hm.2 c hc

/-- A write keeps the canonical form. -/
theorem write_wf (m : Memory) (a : Nat) (v : Byte) (hm : m.wf) : (m.write a v).wf := by
  have he : (m.erase a).wf := ⟨hm.1.filter _, fun c hc => hm.2 c (mem_erase.1 hc).1⟩
  unfold Memory.write
  split
  · exact he
  · exact insert_wf _ _ _ he (fun c hc => (mem_erase.1 hc).2) ‹_›

/-- A write inside the buffer lists no address outside it. -/
theorem write_within (m : Memory) (a : Nat) (v : Byte) (size : Nat) (hm : m.Within size) (ha : a < size) :
    (m.write a v).Within size := by
  intro c hc
  unfold Memory.write at hc
  split at hc
  · exact hm c (mem_erase.1 hc).1
  · rcases mem_insert.1 hc with rfl | hc
    · exact ha
    · exact hm c (mem_erase.1 hc).1

theorem writeBytes_wf (vs : List Byte) : ∀ (m : Memory) (a : Nat), m.wf → (m.writeBytes a vs).wf := by
  induction vs with
  | nil => exact fun _ _ h => h
  | cons v vs ih => exact fun m a h => ih _ _ (write_wf m a v h)

theorem writeBytes_within (vs : List Byte) (size : Nat) : ∀ (m : Memory) (a : Nat), m.Within size →
    a + vs.length ≤ size → (m.writeBytes a vs).Within size := by
  induction vs with
  | nil => exact fun _ _ h _ => h
  | cons v vs ih =>
    intro m a h hl
    simp only [List.length_cons] at hl
    exact ih _ _ (write_within m a v size h (by omega)) (by omega)

/-- A read after a block write: the byte of the block at its place, every other byte as before. -/
theorem read_writeBytes (vs : List Byte) : ∀ (m : Memory) (a x : Nat),
    (m.writeBytes a vs).read x = if a ≤ x ∧ x < a + vs.length then vs.getD (x - a) 0#8 else m.read x := by
  induction vs with
  | nil =>
    intro m a x
    have : ¬ (a ≤ x ∧ x < a + ([] : List Byte).length) := by simp
    rw [if_neg this]
    rfl
  | cons v vs ih =>
    intro m a x
    rw [show m.writeBytes a (v :: vs) = (m.write a v).writeBytes (a + 1) vs from rfl, ih, read_write]
    simp only [List.length_cons]
    rcases lt_trichotomy x a with h | h | h
    · rw [if_neg (by omega), if_neg (by omega), if_neg (by omega)]
    · subst h
      rw [if_neg (by omega), if_pos rfl, if_pos (by omega), Nat.sub_self]
      rfl
    · have e : x - a = (x - (a + 1)) + 1 := by omega
      by_cases hx : x < a + (vs.length + 1)
      · rw [if_pos (by omega), if_pos (by omega), e]
        rfl
      · rw [if_neg (by omega), if_neg (by omega), if_neg (by omega)]

@[simp] theorem length_readBytes (m : Memory) : ∀ (n a : Nat), (m.readBytes a n).length = n := by
  intro n
  induction n with
  | zero => exact fun _ => rfl
  | succ n ih => exact fun a => by simp [Memory.readBytes, ih]

/-- A block read is the list of the byte reads. -/
theorem readBytes_eq_map (m : Memory) : ∀ (n a : Nat), m.readBytes a n = (List.range n).map (fun i => m.read (a + i)) := by
  intro n
  induction n with
  | zero => exact fun _ => rfl
  | succ n ih =>
    intro a
    rw [List.range_succ_eq_map, List.map_cons, List.map_map]
    rw [show m.readBytes a (n + 1) = m.read a :: m.readBytes (a + 1) n from rfl, ih]
    refine congrArg₂ _ rfl (List.map_congr_left fun i _ => ?_)
    simp only [Function.comp_apply, Nat.succ_eq_add_one]
    congr 1
    omega

/-- A block read depends on the bytes of the block only. -/
theorem readBytes_congr (m m' : Memory) (a n : Nat) (h : ∀ x, a ≤ x → x < a + n → m.read x = m'.read x) :
    m.readBytes a n = m'.readBytes a n := by
  rw [readBytes_eq_map, readBytes_eq_map]
  exact List.map_congr_left fun i hi => h _ (by omega) (by have := List.mem_range.1 hi; omega)

theorem readBytes_append (m : Memory) (a k : Nat) : ∀ n, m.readBytes a (n + k) = m.readBytes a n ++ m.readBytes (a + n) k := by
  intro n
  induction n generalizing a with
  | zero => simp [Memory.readBytes]
  | succ n ih =>
    rw [show n + 1 + k = (n + k) + 1 by omega]
    simp only [Memory.readBytes, List.cons_append]
    rw [ih, show a + 1 + n = a + (n + 1) by omega]

@[simp] theorem length_bigEndian (v : Word) : (bigEndian v).length = 4 := rfl

/-- A word write reaches its four bytes only. -/
theorem read_writeWord (m : Memory) (a x : Nat) (v : Word) :
    (m.writeWord a v).read x = if a ≤ x ∧ x < a + 4 then (bigEndian v).getD (x - a) 0#8 else m.read x :=
  read_writeBytes (bigEndian v) m a x

/-- A block write, read back. -/
theorem readBytes_writeBytes (vs : List Byte) : ∀ (m : Memory) (a : Nat), (m.writeBytes a vs).readBytes a vs.length = vs := by
  induction vs with
  | nil => exact fun _ _ => rfl
  | cons v vs ih =>
    intro m a
    rw [List.length_cons, Memory.readBytes, show m.writeBytes a (v :: vs) = (m.write a v).writeBytes (a + 1) vs from rfl,
      ih, read_writeBytes, if_neg (by omega), read_write, if_pos rfl]

/-- A word write, read back as four bytes. -/
theorem readBytes_writeWord (m : Memory) (a : Nat) (v : Word) : (m.writeWord a v).readBytes a 4 = bigEndian v :=
  readBytes_writeBytes (bigEndian v) m a

theorem writeWord_wf (m : Memory) (a : Nat) (v : Word) (hm : m.wf) : (m.writeWord a v).wf :=
  writeBytes_wf _ _ _ hm

theorem writeWord_within (m : Memory) (a : Nat) (v : Word) (size : Nat) (hm : m.Within size) (ha : a + 4 ≤ size) :
    (m.writeWord a v).Within size :=
  writeBytes_within _ _ _ _ hm ha

theorem wf_nil : Memory.wf [] := ⟨List.Pairwise.nil, fun _ h => by cases h⟩

theorem read_of_mem {m : Memory} (hm : m.wf) {c : Host.Cell} (hc : c ∈ m) : m.read c.1 = c.2 := by
  induction m with
  | nil => simp at hc
  | cons d rest ih =>
    obtain ⟨hd, hr⟩ := List.pairwise_cons.1 hm.1
    rw [read_cons]
    rcases List.mem_cons.1 hc with rfl | hc
    · rw [if_pos rfl]
    · rw [if_neg (hd c hc).ne, ih ⟨hr, fun e he => hm.2 e (by simp [he])⟩ hc]

/-- The canonical form: memories that read alike are the same data. -/
theorem ext_of_read {m m' : Memory} (hm : m.wf) (hm' : m'.wf) (h : ∀ a, m.read a = m'.read a) : m = m' := by
  have key : ∀ {m m' : Memory}, m.wf → m'.wf → (∀ a, m.read a = m'.read a) → ∀ c ∈ m, c ∈ m' := by
    intro m m' hm hm' h c hc
    by_contra hn
    have hl : ∃ d ∈ m', d.1 = c.1 := by
      by_contra hno
      push Not at hno
      refine hm.2 c hc ?_
      rw [← read_of_mem hm hc, h, read_of_not_listed m' c.1 hno]
    obtain ⟨d, hd, hdc⟩ := hl
    have : d = c := Prod.ext hdc (by rw [← read_of_mem hm' hd, ← read_of_mem hm hc, hdc, h])
    exact hn (this ▸ hd)
  have nd : ∀ {m : Memory}, m.wf → m.Nodup := fun hm => hm.1.imp fun hlt e => absurd (e ▸ hlt) (lt_irrefl _)
  have hp : m.Perm m' := (List.perm_ext_iff_of_nodup (nd hm) (nd hm')).2
    fun c => ⟨key hm hm' h c, key hm' hm (fun a => (h a).symm) c⟩
  exact hp.eq_of_pairwise (fun a b _ _ hab hba => absurd (hab.trans hba) (lt_irrefl _)) hm.1 hm'.1

end Memory

end Sys2Proof.Machine
end

