-- ==== Sys2Proof/Laws/State.lean ====
section
/-! SUPPORT. What each field of the state is after each update: one lemma a field and update, so that no later proof
unfolds a record update. -/
namespace Sys2Proof.Machine
open Sys2Proof

@[simp] theorem State.withAcc_params (s : State) (v : Word) : (s.withAcc v).params = s.params := rfl
@[simp] theorem State.withAcc_timers (s : State) (v : Word) : (s.withAcc v).timers = s.timers := rfl
@[simp] theorem State.withAcc_acc (s : State) (v : Word) : (s.withAcc v).acc = v := rfl
@[simp] theorem State.withAcc_buf (s : State) (v : Word) : (s.withAcc v).buf = s.buf := rfl
@[simp] theorem State.withAcc_tx (s : State) (v : Word) : (s.withAcc v).tx = s.tx := rfl
@[simp] theorem State.withAcc_now (s : State) (v : Word) : (s.withAcc v).now = s.now := rfl
@[simp] theorem State.withAcc_rspStatus (s : State) (v : Word) : (s.withAcc v).rspStatus = s.rspStatus := rfl
@[simp] theorem State.withAcc_rspValue (s : State) (v : Word) : (s.withAcc v).rspValue = s.rspValue := rfl
@[simp] theorem State.withAcc_pending (s : State) (v : Word) : (s.withAcc v).pending = s.pending := rfl

@[simp] theorem State.withBuf_params (s : State) (m : Memory) : (s.withBuf m).params = s.params := rfl
@[simp] theorem State.withBuf_timers (s : State) (m : Memory) : (s.withBuf m).timers = s.timers := rfl
@[simp] theorem State.withBuf_acc (s : State) (m : Memory) : (s.withBuf m).acc = s.acc := rfl
@[simp] theorem State.withBuf_buf (s : State) (m : Memory) : (s.withBuf m).buf = m := rfl
@[simp] theorem State.withBuf_tx (s : State) (m : Memory) : (s.withBuf m).tx = s.tx := rfl
@[simp] theorem State.withBuf_now (s : State) (m : Memory) : (s.withBuf m).now = s.now := rfl
@[simp] theorem State.withBuf_rspStatus (s : State) (m : Memory) : (s.withBuf m).rspStatus = s.rspStatus := rfl
@[simp] theorem State.withBuf_rspValue (s : State) (m : Memory) : (s.withBuf m).rspValue = s.rspValue := rfl
@[simp] theorem State.withBuf_pending (s : State) (m : Memory) : (s.withBuf m).pending = s.pending := rfl

@[simp] theorem State.withTimers_params (s : State) (ts : List Timer) : (s.withTimers ts).params = s.params := rfl
@[simp] theorem State.withTimers_timers (s : State) (ts : List Timer) : (s.withTimers ts).timers = ts := rfl
@[simp] theorem State.withTimers_acc (s : State) (ts : List Timer) : (s.withTimers ts).acc = s.acc := rfl
@[simp] theorem State.withTimers_buf (s : State) (ts : List Timer) : (s.withTimers ts).buf = s.buf := rfl
@[simp] theorem State.withTimers_tx (s : State) (ts : List Timer) : (s.withTimers ts).tx = s.tx := rfl
@[simp] theorem State.withTimers_now (s : State) (ts : List Timer) : (s.withTimers ts).now = s.now := rfl
@[simp] theorem State.withTimers_rspStatus (s : State) (ts : List Timer) : (s.withTimers ts).rspStatus = s.rspStatus := rfl
@[simp] theorem State.withTimers_rspValue (s : State) (ts : List Timer) : (s.withTimers ts).rspValue = s.rspValue := rfl
@[simp] theorem State.withTimers_pending (s : State) (ts : List Timer) : (s.withTimers ts).pending = s.pending := rfl

@[simp] theorem State.send_params (s : State) (bytes : List Byte) : (s.send bytes).params = s.params := rfl
@[simp] theorem State.send_timers (s : State) (bytes : List Byte) : (s.send bytes).timers = s.timers := rfl
@[simp] theorem State.send_acc (s : State) (bytes : List Byte) : (s.send bytes).acc = s.acc := rfl
@[simp] theorem State.send_buf (s : State) (bytes : List Byte) : (s.send bytes).buf = s.buf := rfl
@[simp] theorem State.send_tx (s : State) (bytes : List Byte) : (s.send bytes).tx = s.tx ++ bytes := rfl
@[simp] theorem State.send_now (s : State) (bytes : List Byte) : (s.send bytes).now = s.now := rfl
@[simp] theorem State.send_rspStatus (s : State) (bytes : List Byte) : (s.send bytes).rspStatus = s.rspStatus := rfl
@[simp] theorem State.send_rspValue (s : State) (bytes : List Byte) : (s.send bytes).rspValue = s.rspValue := rfl
@[simp] theorem State.send_pending (s : State) (bytes : List Byte) : (s.send bytes).pending = s.pending := rfl

@[simp] theorem State.answer_params (s : State) (status : BitVec 4) (value : Word) : (s.answer status value).params = s.params := rfl
@[simp] theorem State.answer_timers (s : State) (status : BitVec 4) (value : Word) : (s.answer status value).timers = s.timers := rfl
@[simp] theorem State.answer_acc (s : State) (status : BitVec 4) (value : Word) : (s.answer status value).acc = s.acc := rfl
@[simp] theorem State.answer_buf (s : State) (status : BitVec 4) (value : Word) : (s.answer status value).buf = s.buf := rfl
@[simp] theorem State.answer_tx (s : State) (status : BitVec 4) (value : Word) : (s.answer status value).tx = s.tx := rfl
@[simp] theorem State.answer_now (s : State) (status : BitVec 4) (value : Word) : (s.answer status value).now = s.now := rfl
@[simp] theorem State.answer_rspStatus (s : State) (status : BitVec 4) (value : Word) : (s.answer status value).rspStatus = status := rfl
@[simp] theorem State.answer_rspValue (s : State) (status : BitVec 4) (value : Word) : (s.answer status value).rspValue = value := rfl
@[simp] theorem State.answer_pending (s : State) (status : BitVec 4) (value : Word) : (s.answer status value).pending = s.pending := rfl

@[simp] theorem State.take_params (s : State) (now : Word) (rest : List HostInput) : (s.take now rest).params = s.params := rfl
@[simp] theorem State.take_timers (s : State) (now : Word) (rest : List HostInput) : (s.take now rest).timers = s.timers := rfl
@[simp] theorem State.take_acc (s : State) (now : Word) (rest : List HostInput) : (s.take now rest).acc = s.acc := rfl
@[simp] theorem State.take_buf (s : State) (now : Word) (rest : List HostInput) : (s.take now rest).buf = s.buf := rfl
@[simp] theorem State.take_tx (s : State) (now : Word) (rest : List HostInput) : (s.take now rest).tx = s.tx := rfl
@[simp] theorem State.take_now (s : State) (now : Word) (rest : List HostInput) : (s.take now rest).now = now := rfl
@[simp] theorem State.take_rspStatus (s : State) (now : Word) (rest : List HostInput) : (s.take now rest).rspStatus = s.rspStatus := rfl
@[simp] theorem State.take_rspValue (s : State) (now : Word) (rest : List HostInput) : (s.take now rest).rspValue = s.rspValue := rfl
@[simp] theorem State.take_pending (s : State) (now : Word) (rest : List HostInput) : (s.take now rest).pending = rest := rfl

@[simp] theorem State.presented_params (s : State) (cs : List (Instr × Word)) : (s.presented cs).params = s.params := rfl
@[simp] theorem State.presented_timers (s : State) (cs : List (Instr × Word)) : (s.presented cs).timers = s.timers := rfl
@[simp] theorem State.presented_acc (s : State) (cs : List (Instr × Word)) : (s.presented cs).acc = s.acc := rfl
@[simp] theorem State.presented_buf (s : State) (cs : List (Instr × Word)) : (s.presented cs).buf = s.buf := rfl
@[simp] theorem State.presented_tx (s : State) (cs : List (Instr × Word)) : (s.presented cs).tx = s.tx := rfl
@[simp] theorem State.presented_now (s : State) (cs : List (Instr × Word)) : (s.presented cs).now = s.now := rfl
@[simp] theorem State.presented_rspStatus (s : State) (cs : List (Instr × Word)) : (s.presented cs).rspStatus = s.rspStatus := rfl
@[simp] theorem State.presented_rspValue (s : State) (cs : List (Instr × Word)) : (s.presented cs).rspValue = s.rspValue := rfl
@[simp] theorem State.presented_pending (s : State) (cs : List (Instr × Word)) : (s.presented cs).pending = presentAll cs := rfl

@[simp] theorem State.setTimer_params (s : State) (t : Nat) (T : Timer) : (s.setTimer t T).params = s.params := rfl
@[simp] theorem State.setTimer_timers (s : State) (t : Nat) (T : Timer) : (s.setTimer t T).timers = s.timers.set t T := rfl
@[simp] theorem State.setTimer_acc (s : State) (t : Nat) (T : Timer) : (s.setTimer t T).acc = s.acc := rfl
@[simp] theorem State.setTimer_buf (s : State) (t : Nat) (T : Timer) : (s.setTimer t T).buf = s.buf := rfl
@[simp] theorem State.setTimer_tx (s : State) (t : Nat) (T : Timer) : (s.setTimer t T).tx = s.tx := rfl
@[simp] theorem State.setTimer_now (s : State) (t : Nat) (T : Timer) : (s.setTimer t T).now = s.now := rfl
@[simp] theorem State.setTimer_rspStatus (s : State) (t : Nat) (T : Timer) : (s.setTimer t T).rspStatus = s.rspStatus := rfl
@[simp] theorem State.setTimer_rspValue (s : State) (t : Nat) (T : Timer) : (s.setTimer t T).rspValue = s.rspValue := rfl
@[simp] theorem State.setTimer_pending (s : State) (t : Nat) (T : Timer) : (s.setTimer t T).pending = s.pending := rfl

@[simp] theorem State.launch_params (P : Params) (d : LaunchInput) : (State.launch P d).params = P := rfl
@[simp] theorem State.launch_timers (P : Params) (d : LaunchInput) : (State.launch P d).timers = launchTimers d.nexts 0 P.intervals := rfl
@[simp] theorem State.launch_acc (P : Params) (d : LaunchInput) : (State.launch P d).acc = P.crc.init := rfl
@[simp] theorem State.launch_buf (P : Params) (d : LaunchInput) : (State.launch P d).buf = Memory.writeBytes [] 0 (d.bytes.take P.bufSize) := rfl
@[simp] theorem State.launch_tx (P : Params) (d : LaunchInput) : (State.launch P d).tx = [] := rfl
@[simp] theorem State.launch_now (P : Params) (d : LaunchInput) : (State.launch P d).now = 0#32 := rfl
@[simp] theorem State.launch_rspStatus (P : Params) (d : LaunchInput) : (State.launch P d).rspStatus = 0#4 := rfl
@[simp] theorem State.launch_rspValue (P : Params) (d : LaunchInput) : (State.launch P d).rspValue = 0#32 := rfl
@[simp] theorem State.launch_pending (P : Params) (d : LaunchInput) : (State.launch P d).pending = [] := rfl

/-- A later response replaces an earlier one. -/
@[simp] theorem State.answer_answer (s : State) (x y : BitVec 4) (v w : Word) :
    (s.answer x v).answer y w = s.answer y w := rfl

end Sys2Proof.Machine
end

