-- ==== Sys2Proof/Laws/Ops.lean ====
section
/-! SUPPORT. The laws of the shared operations: ending a command, and the checksum function. -/
namespace Sys2Proof.Machine
open Sys2Proof

@[simp] theorem respond_eq (v : Word) (s : State) : respond v s = .next (s.answer 0#4 v) := rfl

@[simp] theorem raiseError_eq (e : CmdError) (s : State) : raiseError e s = .next (s.answer (errorCode e) 0#32) := rfl

/-- No error has the status code of success, or a code above 5 (R182). -/
theorem errorCode_range (e : CmdError) : errorCode e ≠ 0#4 ∧ (errorCode e).toNat ≤ 5 := by
  cases e <;> decide

@[simp] theorem crcFold_nil (alg : CrcAlg) (acc : Word) : crcFold alg acc [] = acc := rfl

@[simp] theorem crcFold_cons (alg : CrcAlg) (acc : Word) (b : Byte) (bs : List Byte) :
    crcFold alg acc (b :: bs) = crcFold alg (crcStep alg acc b) bs := rfl

theorem crcFold_append (alg : CrcAlg) (acc : Word) (bs cs : List Byte) :
    crcFold alg acc (bs ++ cs) = crcFold alg (crcFold alg acc bs) cs := List.foldl_append ..

/-- One more byte at the end (R82). -/
theorem crcAcc_concat (alg : CrcAlg) (bs : List Byte) (b : Byte) :
    crcAcc alg (bs ++ [b]) = crcStep alg (crcAcc alg bs) b := crcFold_append ..

theorem crcBits_add (poly : Word) (order : BitOrder) (acc : Word) (k : Nat) :
    ∀ j, crcBits poly order (j + k) acc = crcBits poly order k (crcBits poly order j acc) := by
  intro j
  induction j generalizing acc with
  | zero => simp [crcBits]
  | succ j ih => rw [show j + 1 + k = (j + k) + 1 by omega]; exact ih _

/-- A checksum bit is linear: the bit of an xor is the xor of the bits. -/
theorem crcBit_xor (poly : Word) (order : BitOrder) (x y : Word) :
    crcBit poly order (x ^^^ y) = crcBit poly order x ^^^ crcBit poly order y := by
  have key : ∀ (a b p : Word) (u v : Bool),
      (if (u ^^ v) = true then (a ^^^ b) ^^^ p else a ^^^ b) =
        (if u = true then a ^^^ p else a) ^^^ (if v = true then b ^^^ p else b) := by
    intro a b p u v
    cases u <;> cases v <;> apply BitVec.eq_of_getLsbD_eq <;> intro i _ <;> simp [Bool.xor_comm, Bool.xor_left_comm]
  unfold crcBit
  cases order
  · simp only [BitVec.ushiftRight_xor_distrib, BitVec.getLsbD_xor]
    exact key _ _ _ _ _
  · simp only [BitVec.shiftLeft_xor_distrib, BitVec.getLsbD_xor]
    exact key _ _ _ _ _

theorem crcBits_xor (poly : Word) (order : BitOrder) (k : Nat) :
    ∀ x y : Word, crcBits poly order k (x ^^^ y) = crcBits poly order k x ^^^ crcBits poly order k y := by
  induction k with
  | zero => exact fun _ _ => rfl
  | succ k ih => exact fun x y => by rw [crcBits, crcBit_xor, ih]; rfl

/-- The step of a bit-serial algorithm (R81). -/
theorem crcStep_bitSerial {alg : CrcAlg} {poly : Word} {order : BitOrder} (h : alg.step = .bitSerial poly order)
    (acc : Word) (b : Byte) : crcStep alg acc b = crcBits poly order 8 (crcMeet order acc b) := by
  rw [crcStep, h]

/-- The step of an algorithm whose step function is written out. -/
theorem crcStep_table {alg : CrcAlg} {rows : List ((Word × Byte) × Word)} (h : alg.step = .table rows)
    (acc : Word) (b : Byte) : crcStep alg acc b = tableAt rows (acc, b) := by
  rw [crcStep, h]

/-- The end of an algorithm that xors a constant (R83). -/
theorem crcFinal_xor {alg : CrcAlg} {v : Word} (h : alg.final = .xor v) (acc : Word) : crcFinal alg acc = acc ^^^ v := by
  rw [crcFinal, h]

theorem crcFinal_table {alg : CrcAlg} {rows : List (Word × Word)} (h : alg.final = .table rows) (acc : Word) :
    crcFinal alg acc = tableAt rows acc := by
  rw [crcFinal, h]

@[simp] theorem crcFinal_isoHdlc (acc : Word) : crcFinal .isoHdlc acc = acc ^^^ 0xFFFFFFFF#32 := rfl

/-- The table that lists a function's value at each argument of `l` gives that value there. -/
theorem tableAt_map {α : Type} [BEq α] [LawfulBEq α] (f : α → Word) (l : List α) {x : α} (hx : x ∈ l) :
    tableAt (l.map (fun y => (y, f y))) x = f x := by
  induction l with
  | nil => simp at hx
  | cons y l ih =>
    by_cases hxy : x = y
    · simp [tableAt, hxy]
    · have : (x == y) = false := by simpa using hxy
      have ih' := ih ((List.mem_cons.1 hx).resolve_left hxy)
      simpa [tableAt, List.lookup_cons, this] using ih'

/-- On a finite type every function to words is a table. -/
theorem exists_table {α : Type} [BEq α] [LawfulBEq α] [Fintype α] (f : α → Word) :
    ∃ rows : List (α × Word), ∀ x, tableAt rows x = f x :=
  ⟨Finset.univ.toList.map (fun y => (y, f y)), fun _ => tableAt_map f _ (Finset.mem_toList.2 (Finset.mem_univ _))⟩

/-- Every start value, step function and final function are those of some algorithm: `CRC_ALG` is open (R10). -/
theorem exists_crcAlg (init : Word) (f : Word → Byte → Word) (g : Word → Word) :
    ∃ alg : CrcAlg, alg.init = init ∧ (∀ acc b, crcStep alg acc b = f acc b) ∧ ∀ acc, crcFinal alg acc = g acc := by
  obtain ⟨steps, hs⟩ := exists_table (fun x : Word × Byte => f x.1 x.2)
  obtain ⟨finals, hf⟩ := exists_table g
  exact ⟨{ init := init, step := .table steps, final := .table finals }, rfl, fun acc b => hs (acc, b), hf⟩

end Sys2Proof.Machine
end

