-- ==== Sys2Proof/Laws/Commands.lean ====
section
/-! SUPPORT. What each command does, said once as an equation, and what all of them share. -/
namespace Sys2Proof.Machine
open Sys2Proof

theorem execCkinit_eq (s : State) : execCkinit s = .next ((s.withAcc s.params.crc.init).answer 0#4 0#32) := rfl

theorem execCkbyte_eq (b : Byte) (s : State) :
    execCkbyte b s = .next ((s.withAcc (crcStep s.params.crc s.acc b)).answer 0#4 0#32) := rfl

theorem execCkrd_eq (s : State) : execCkrd s = .next (s.answer 0#4 (crcFinal s.params.crc s.acc)) := rfl

theorem execTdue_badTimer {s : State} {t : Nat} (h : s.timers[t]? = none) :
    execTdue t s = .next (s.answer 3#4 0#32) := by
  simp [execTdue, State.timer?, h, errorCode]

/-- TDUE on a record of the machine: a due check rearms it, another changes nothing. -/
theorem execTdue_eq {s : State} {t : Nat} {T : Timer} (h : s.timers[t]? = some T) :
    execTdue t s = .next (if T.isDue s.now then (s.setTimer t (T.rearm s.now)).answer 0#4 1#32 else s.answer 0#4 0#32) := by
  simp only [execTdue, State.timer?, h]
  split <;> simp_all [dueValue]

theorem execBufwr_eq {s : State} {a : Nat} (b : Byte) (h : a < s.params.maxLen + 4) :
    execBufwr a b s = .next ((s.withBuf (s.buf.write a b)).answer 0#4 0#32) := by
  simp [execBufwr, State.addressOk, State.bufSize, Params.bufSize, prefixLen, h]

theorem execBufwr_badAddress {s : State} {a : Nat} (b : Byte) (h : s.params.maxLen + 4 ≤ a) :
    execBufwr a b s = .next (s.answer 4#4 0#32) := by
  simp [execBufwr, State.addressOk, State.bufSize, Params.bufSize, prefixLen, not_lt.2 h, errorCode]

theorem execBufrd_eq {s : State} {a : Nat} (h : a < s.params.maxLen + 4) :
    execBufrd a s = .next (s.answer 0#4 ((s.buf.read a).setWidth 32)) := by
  simp [execBufrd, State.addressOk, State.bufSize, Params.bufSize, prefixLen, h]

theorem execBufrd_badAddress {s : State} {a : Nat} (h : s.params.maxLen + 4 ≤ a) :
    execBufrd a s = .next (s.answer 4#4 0#32) := by
  simp [execBufrd, State.addressOk, State.bufSize, Params.bufSize, prefixLen, not_lt.2 h, errorCode]

theorem execFrame_badLength {s : State} {n : Nat} (h : s.params.maxLen < n) :
    execFrame n s = .next (s.answer 5#4 0#32) := by
  simp [execFrame, State.lengthOk, not_le.2 h, errorCode]

/-- The bytes FRAME sends: the checksum just stored, then the payload, which the store does not reach (R47). -/
theorem readBytes_checksummedBuf (s : State) (n : Nat) :
    (s.checksummedBuf n).readBytes 0 (prefixLen + n) = bigEndian (crc s.params.crc (s.payload n)) ++ s.payload n := by
  rw [prefixLen, Memory.readBytes_append]
  unfold State.checksummedBuf
  rw [Memory.readBytes_writeWord]
  refine congrArg _ (Memory.readBytes_congr _ _ _ _ fun x hx _ => ?_)
  rw [Memory.read_writeWord, if_neg (by omega)]

theorem execFrame_eq {s : State} {n : Nat} (h : n ≤ s.params.maxLen) :
    execFrame n s = .next ((((s.withAcc (crcAcc s.params.crc (s.payload n))).withBuf (s.checksummedBuf n)).send
      (frameText s.params (bigEndian (crc s.params.crc (s.payload n)) ++ s.payload n))).answer 0#4 0#32) := by
  simp [execFrame, State.lengthOk, h, readBytes_checksummedBuf]

theorem payload_eq_map (s : State) (n : Nat) : s.payload n = (List.range n).map (fun i => s.buf.read (4 + i)) :=
  Memory.readBytes_eq_map ..

@[simp] theorem length_payload (s : State) (n : Nat) : (s.payload n).length = n := Memory.length_readBytes ..

/-- No byte above the first four is reached by the checksum store. -/
theorem read_checksummedBuf (s : State) (n x : Nat) (h : 4 ≤ x) : (s.checksummedBuf n).read x = s.buf.read x := by
  rw [State.checksummedBuf, Memory.read_writeWord, if_neg (by omega)]

/-- Every command ends with a response: a next state (R223). -/
theorem exec_next (i : Instr) (s : State) : ∃ t, exec i s = .next t := by
  cases i with
  | ckinit => exact ⟨_, rfl⟩
  | ckbyte b => exact ⟨_, rfl⟩
  | ckrd => exact ⟨_, rfl⟩
  | tdue t =>
    rcases h : s.timers[t]? with _ | T
    · exact ⟨_, execTdue_badTimer h⟩
    · exact ⟨_, execTdue_eq h⟩
  | bufwr a b => exact (lt_or_ge a _).elim (fun h => ⟨_, execBufwr_eq b h⟩) (fun h => ⟨_, execBufwr_badAddress b h⟩)
  | bufrd a => exact (lt_or_ge a _).elim (fun h => ⟨_, execBufrd_eq h⟩) (fun h => ⟨_, execBufrd_badAddress h⟩)
  | frame n => exact (le_or_gt n _).elim (fun h => ⟨_, execFrame_eq h⟩) (fun h => ⟨_, execFrame_badLength h⟩)

/-- The word's outcome is a command's or an error's. -/
theorem runWord_ok {w : Word} {i : Instr} (h : decode w = .ok i) (s : State) : runWord w s = exec i s := by
  simp [runWord, h]

theorem runWord_error {w : Word} {e : CmdError} (h : decode w = .error e) (s : State) :
    runWord w s = .next (s.answer (errorCode e) 0#32) := by
  simp [runWord, h]

theorem step_idle {s : State} (h : s.pending = []) : step s = .next s := by simp [step, h]

theorem step_command {s : State} {w now : Word} {rest : List HostInput} (h : s.pending = .command w now :: rest) :
    step s = runWord w (s.take now rest) := by simp [step, h, takeInput]

theorem step_reset {s : State} {d : LaunchInput} {rest : List HostInput} (h : s.pending = .reset d :: rest) :
    step s = .next { State.launch s.params d with now := s.now, pending := rest } := by
  simp [step, h, takeInput, resetPort]

end Sys2Proof.Machine
end

