-- ==== Sys2Proof/Laws/Decode.lean ====
section
/-! SUPPORT. The fields of a command word, and what the decoder answers, said once. -/
namespace Sys2Proof

/-- Bit `i` of a command word: of `b` below bit 8, of `a` below bit 24, of `op` above. -/
theorem getLsbD_commandWord (op : BitVec 8) (a : Nat) (b : Byte) (i : Nat) :
    (commandWord op a b).getLsbD i =
      if i < 8 then b.getLsbD i else if i < 24 then (BitVec.ofNat 16 a).getLsbD (i - 8) else op.getLsbD (i - 24) := by
  simp only [commandWord, BitVec.getLsbD_or, BitVec.getLsbD_shiftLeft, BitVec.getLsbD_setWidth]
  by_cases h8 : i < 8
  · simp [h8, show i < 32 by omega, show i < 24 by omega]
  · by_cases h24 : i < 24
    · have : b.getLsbD i = false := BitVec.getLsbD_of_ge _ _ (by omega)
      simp [h8, h24, this, show i < 32 by omega, show i - 8 < 32 by omega]
    · have hb : b.getLsbD i = false := BitVec.getLsbD_of_ge _ _ (by omega)
      have ha : (BitVec.ofNat 16 a).getLsbD (i - 8) = false := BitVec.getLsbD_of_ge _ _ (by omega)
      by_cases h32 : i < 32
      · simp only [h8, h24, hb, ha, h32]
        simp [show i - 24 < 32 by omega]
      · have ho : op.getLsbD (i - 24) = false := BitVec.getLsbD_of_ge _ _ (by omega)
        simp only [h8, h24, hb, ha, h32, ho]
        simp

@[simp] theorem opField_commandWord (op : BitVec 8) (a : Nat) (b : Byte) : opField (commandWord op a b) = op := by
  apply BitVec.eq_of_getLsbD_eq
  intro i hi
  rw [opField, BitVec.getLsbD_extractLsb', getLsbD_commandWord, if_neg (by omega), if_neg (by omega),
    show 24 + i - 24 = i by omega]
  simp [hi]

theorem aField_commandWord (op : BitVec 8) (a : Nat) (b : Byte) (ha : a < 65536) :
    aField (commandWord op a b) = a := by
  have : (commandWord op a b).extractLsb' 8 16 = BitVec.ofNat 16 a := by
    apply BitVec.eq_of_getLsbD_eq
    intro i hi
    rw [BitVec.getLsbD_extractLsb', getLsbD_commandWord, if_neg (by omega), if_pos (by omega),
      show 8 + i - 8 = i by omega]
    simp [hi]
  rw [aField, this, BitVec.toNat_ofNat]
  exact Nat.mod_eq_of_lt ha

@[simp] theorem bField_commandWord (op : BitVec 8) (a : Nat) (b : Byte) : bField (commandWord op a b) = b := by
  apply BitVec.eq_of_getLsbD_eq
  intro i hi
  rw [bField, BitVec.getLsbD_extractLsb', getLsbD_commandWord, if_pos (by omega)]
  simp [hi]

theorem aField_lt (w : Word) : aField w < 65536 := (w.extractLsb' 8 16).isLt

theorem fitsFieldA_iff (x : Nat) : fitsFieldA x = true ↔ x < 65536 := decide_eq_true_iff

/-- A word is put together from its three fields. -/
theorem commandWord_fields (w : Word) : commandWord (opField w) (aField w) (bField w) = w := by
  apply BitVec.eq_of_getLsbD_eq
  intro i hi
  rw [getLsbD_commandWord]
  simp only [aField, opField, bField, BitVec.ofNat_toNat, BitVec.setWidth_eq, BitVec.getLsbD_extractLsb']
  by_cases h1 : i < 8
  · simp [h1]
  · by_cases h2 : i < 24
    · simp [h1, h2, show i - 8 < 16 by omega, show 8 + (i - 8) = i by omega]
    · simp [h1, h2, show i - 24 < 8 by omega, show 24 + (i - 24) = i by omega]

/-- Two words with the same fields are the same word. -/
theorem word_ext {w w' : Word} (ho : opField w = opField w') (ha : aField w = aField w') (hb : bField w = bField w') :
    w = w' := by
  rw [← commandWord_fields w, ← commandWord_fields w', ho, ha, hb]

/-- Everything the decoder can answer with `ok`: the row, its opcode, and its must-be-zero fields (R62, R64). -/
theorem decode_ok_cases {w : Word} {i : Instr} (h : decode w = .ok i) :
    (opField w = 0x01#8 ∧ aField w = 0 ∧ bField w = 0#8 ∧ i = .ckinit) ∨
    (opField w = 0x02#8 ∧ aField w = 0 ∧ i = .ckbyte (bField w)) ∨
    (opField w = 0x03#8 ∧ aField w = 0 ∧ bField w = 0#8 ∧ i = .ckrd) ∨
    (opField w = 0x04#8 ∧ bField w = 0#8 ∧ i = .tdue (aField w)) ∨
    (opField w = 0x05#8 ∧ i = .bufwr (aField w) (bField w)) ∨
    (opField w = 0x06#8 ∧ bField w = 0#8 ∧ i = .bufrd (aField w)) ∨
    (opField w = 0x07#8 ∧ bField w = 0#8 ∧ i = .frame (aField w)) := by
  have toOp : ∀ {n : Nat}, (opField w).toNat = n → opField w = BitVec.ofNat 8 n := fun h => by
    rw [← h, BitVec.ofNat_toNat, BitVec.setWidth_eq]
  unfold decode ifReservedZero at h
  split at h
  · split at h <;> simp_all
  · split at h <;> simp_all
  · split at h <;> simp_all
  · split at h <;> simp_all
  · simp_all
  · split at h <;> simp_all
  · split at h <;> simp_all
  · simp at h

/-! What the decoder answers, row by row (R62). -/

theorem decode_ckinit_row {w : Word} (h : opField w = 0x01#8) : decode w = ifReservedZero (aField w == 0 && bField w == 0#8) .ckinit := by
  simp [decode, h]

theorem decode_ckbyte_row {w : Word} (h : opField w = 0x02#8) : decode w = ifReservedZero (aField w == 0) (.ckbyte (bField w)) := by
  simp [decode, h]

theorem decode_ckrd_row {w : Word} (h : opField w = 0x03#8) : decode w = ifReservedZero (aField w == 0 && bField w == 0#8) .ckrd := by
  simp [decode, h]

theorem decode_tdue_row {w : Word} (h : opField w = 0x04#8) : decode w = ifReservedZero (bField w == 0#8) (.tdue (aField w)) := by
  simp [decode, h]

theorem decode_bufwr_row {w : Word} (h : opField w = 0x05#8) : decode w = .ok (.bufwr (aField w) (bField w)) := by
  simp [decode, h]

theorem decode_bufrd_row {w : Word} (h : opField w = 0x06#8) : decode w = ifReservedZero (bField w == 0#8) (.bufrd (aField w)) := by
  simp [decode, h]

theorem decode_frame_row {w : Word} (h : opField w = 0x07#8) : decode w = ifReservedZero (bField w == 0#8) (.frame (aField w)) := by
  simp [decode, h]

/-- The opcodes that no row has (R65). -/
theorem decode_no_row {w : Word} (h : opField w = 0#8 ∨ 0x08#8 ≤ opField w) : decode w = .error .illegalOpcode := by
  have h' : (opField w).toNat = 0 ∨ 8 ≤ (opField w).toNat := h.imp (congrArg BitVec.toNat) (fun h => by simpa [BitVec.le_def] using h)
  unfold decode
  split <;> first | omega | rfl

/-- Every opcode is one of the seven or has no row. -/
theorem op_cases (w : Word) : opField w = 0x01#8 ∨ opField w = 0x02#8 ∨ opField w = 0x03#8 ∨ opField w = 0x04#8 ∨
    opField w = 0x05#8 ∨ opField w = 0x06#8 ∨ opField w = 0x07#8 ∨ (opField w = 0#8 ∨ 0x08#8 ≤ opField w) := by
  generalize opField w = op
  revert op
  decide

theorem aField_eq_zero_iff (w : Word) : aField w = 0 ↔ w.extractLsb' 8 16 = 0#16 := by
  rw [aField, ← BitVec.toNat_inj]
  rfl

/-- The low 24 bits are fields `A` and `B`. -/
theorem low_bits_eq_zero_iff (w : Word) : w.extractLsb' 0 24 = 0#24 ↔ aField w = 0 ∧ bField w = 0#8 := by
  rw [aField_eq_zero_iff, bField]
  constructor
  · intro h
    have hb : ∀ i, i < 24 → w.getLsbD i = false := fun i hi => by
      have := congrArg (fun v => BitVec.getLsbD v i) h
      simpa [hi] using this
    constructor
    · apply BitVec.eq_of_getLsbD_eq
      intro i hi
      simp [hi, hb (8 + i) (by omega)]
    · apply BitVec.eq_of_getLsbD_eq
      intro i hi
      simp [hi, hb i (by omega)]
  · intro h
    apply BitVec.eq_of_getLsbD_eq
    intro i hi
    by_cases h8 : i < 8
    · have := congrArg (fun v => BitVec.getLsbD v i) h.2
      simpa [h8, hi] using this
    · have := congrArg (fun v => BitVec.getLsbD v (i - 8)) h.1
      simpa [hi, show i - 8 < 16 by omega, show 8 + (i - 8) = i by omega] using this

end Sys2Proof
end

