-- ==== Sys2Proof/Laws/Framer.lean ====
section
/-! SUPPORT. The laws of the hex encoder and of the text of a frame. -/
namespace Sys2Proof.Machine
open Sys2Proof

@[simp] theorem hexBytes_nil (c : HexCase) : hexBytes c [] = [] := rfl

@[simp] theorem hexBytes_cons (c : HexCase) (b : Byte) (bs : List Byte) :
    hexBytes c (b :: bs) = hexByte c b ++ hexBytes c bs := rfl

theorem hexBytes_eq_flatMap (c : HexCase) (D : List Byte) : hexBytes c D = D.flatMap (hexByte c) := by
  induction D with
  | nil => rfl
  | cons b bs ih => simp [ih]

@[simp] theorem length_hexBytes (c : HexCase) (D : List Byte) : (hexBytes c D).length = 2 * D.length := by
  induction D with
  | nil => rfl
  | cons b bs ih => simp [ih, hexByte]; omega

/-- The receiver reads back every digit, in either case. -/
theorem digitValue_hexDigit (c : HexCase) (v : BitVec 4) : digitValue (hexDigit c v) = some v := by
  cases c <;> revert v <;> decide

/-- No digit is a brace or the default line terminator. -/
theorem hexDigit_ne (c : HexCase) (v : BitVec 4) : hexDigit c v ≠ 0x7B#8 ∧ hexDigit c v ≠ 0x7D#8 ∧ hexDigit c v ≠ 0x0A#8 := by
  cases c <;> revert v <;> decide

/-- A byte is put together from its two nibbles. -/
theorem nibbles_append (b : Byte) : (b.extractLsb' 4 4 ++ b.extractLsb' 0 4 : BitVec (4 + 4)) = b := by
  revert b
  decide

/-- The receiver reads the hex characters of a byte sequence back (R140). -/
theorem unhex_hexBytes (c : HexCase) (D : List Byte) : unhex (hexBytes c D) = some D := by
  induction D with
  | nil => rfl
  | cons b bs ih =>
    rw [hexBytes_cons]
    simp only [hexByte, List.cons_append, List.nil_append, unhex, digitValue_hexDigit, ih, nibbles_append]

end Sys2Proof.Machine
end

