-- ==== Sys2Proof/Laws/PerInstr.lean ====
section
/-! SUPPORT. Statements made for each command on its own, as syntax. `EncodesItsRow`: the word of a command carries the
match bits of its own row of the opcode map under that row's mask (30_encoding.md R62). -/
namespace Sys2Proof.Laws
open Sys2Proof

/-- The word of a well-formed command is in its row of the opcode map. -/
def EncodesItsRow.Statement (i : Instr) : Prop := i.WellFormed → encode i &&& maskBits i = matchBits i

theorem EncodesItsRow.ckinit : EncodesItsRow.Statement .ckinit := fun _ => by decide

theorem EncodesItsRow.ckbyte (b : Byte) : EncodesItsRow.Statement (.ckbyte b) := fun _ => by
  revert b
  decide

theorem EncodesItsRow.ckrd : EncodesItsRow.Statement .ckrd := fun _ => by decide

/-- A word with `B = 0` under the mask of the rows whose field `B` must be zero. -/
theorem commandWord_and_opAndB (op : BitVec 8) (a : Nat) :
    commandWord op a 0#8 &&& 0xFF0000FF#32 = commandWord op 0 0#8 := by
  apply BitVec.eq_of_getLsbD_eq
  intro i hi
  rw [BitVec.getLsbD_and, getLsbD_commandWord, getLsbD_commandWord]
  have hm : (0xFF0000FF#32).getLsbD i = (decide (i < 8) || decide (24 ≤ i)) := by
    revert i
    decide
  rw [hm]
  by_cases h8 : i < 8
  · simp [h8]
  · by_cases h24 : i < 24
    · simp [h8, h24, not_le.2 h24]
    · simp [h8, h24, not_lt.1 h24]

theorem commandWord_and_op (op : BitVec 8) (a : Nat) (b : Byte) :
    commandWord op a b &&& 0xFF000000#32 = commandWord op 0 0#8 := by
  apply BitVec.eq_of_getLsbD_eq
  intro i hi
  rw [BitVec.getLsbD_and, getLsbD_commandWord, getLsbD_commandWord]
  have hm : (0xFF000000#32).getLsbD i = decide (24 ≤ i) := by
    revert i
    decide
  rw [hm]
  by_cases h8 : i < 8
  · simp [h8, show ¬ 24 ≤ i by omega]
  · by_cases h24 : i < 24
    · simp [h8, h24, not_le.2 h24]
    · simp [h8, h24, not_lt.1 h24]

theorem EncodesItsRow.tdue (t : Nat) : EncodesItsRow.Statement (.tdue t) :=
  fun _ => (commandWord_and_opAndB 0x04#8 t).trans (by decide : commandWord 0x04#8 0 0#8 = 0x04000000#32)

theorem EncodesItsRow.bufwr (a : Nat) (b : Byte) : EncodesItsRow.Statement (.bufwr a b) :=
  fun _ => (commandWord_and_op 0x05#8 a b).trans (by decide : commandWord 0x05#8 0 0#8 = 0x05000000#32)

theorem EncodesItsRow.bufrd (a : Nat) : EncodesItsRow.Statement (.bufrd a) :=
  fun _ => (commandWord_and_opAndB 0x06#8 a).trans (by decide : commandWord 0x06#8 0 0#8 = 0x06000000#32)

theorem EncodesItsRow.frame (n : Nat) : EncodesItsRow.Statement (.frame n) :=
  fun _ => (commandWord_and_opAndB 0x07#8 n).trans (by decide : commandWord 0x07#8 0 0#8 = 0x07000000#32)

end Sys2Proof.Laws
end

