-- ==== Sys2Proof/Laws/Step.lean ====
section
/-! SUPPORT. The laws of a step and of a run: runs are the host's runs, they compose, a response never changes what the
next command does, and what a launch state's timers are. -/
namespace Sys2Proof.Machine
open Sys2Proof

/-- A run is the run of the host's interface. -/
theorem runSteps_eq_core_run (k : Nat) : ∀ s : State, runSteps k s = Host.Core.run Sys2Proof.core k s := by
  induction k with
  | zero => exact fun _ => rfl
  | succ k ih =>
    intro s
    rcases h : step s with t | r | r
    · have h' : Sys2Proof.core.step s = .next t := h
      simp only [runSteps, h, Host.Core.run, h', ih]
      rfl
    · have h' : Sys2Proof.core.step s = .fault r := h
      simp only [runSteps, h, Host.Core.run, h']
      rfl
    · have h' : Sys2Proof.core.step s = .refused r := h
      simp only [runSteps, h, Host.Core.run, h']
      rfl

@[simp] theorem runSteps_zero (s : State) : runSteps 0 s = .next s := rfl

theorem runSteps_succ {k : Nat} {s t : State} (h : step s = .next t) : runSteps (k + 1) s = runSteps k t := by
  simp [runSteps, h]

/-- A word's outcome: a decoding error, which only answers, or the command it stands for. -/
theorem runWord_cases (w : Word) (s : State) :
    (∃ e, decode w = .error e ∧ runWord w s = .next (s.answer (errorCode e) 0#32)) ∨
    (∃ i, decode w = .ok i ∧ runWord w s = exec i s) := by
  rcases h : decode w with e | i
  · exact .inl ⟨e, rfl, runWord_error h s⟩
  · exact .inr ⟨i, rfl, runWord_ok h s⟩

/-- The step that takes a presented well-formed command is that command. -/
theorem step_presented {s : State} {i : Instr} {now : Word} {cs : List (Instr × Word)}
    (hd : decode (encode i) = .ok i) (hp : s.pending = presentAll ((i, now) :: cs)) :
    step s = exec i (s.take now (presentAll cs)) := by
  rw [step_command (w := encode i) (now := now) (rest := presentAll cs) hp, runWord_ok hd]

@[simp] theorem length_launchTimers (nexts l : List Word) : ∀ i, (launchTimers nexts i l).length = l.length := by
  induction l with
  | nil => exact fun _ => rfl
  | cons I l ih => exact fun i => by simp [launchTimers, ih]

/-- The timers of a launch state carry the intervals of the build (R210). -/
@[simp] theorem map_interval_launchTimers (nexts l : List Word) : ∀ i, (launchTimers nexts i l).map Timer.interval = l := by
  induction l with
  | nil => exact fun _ => rfl
  | cons I l ih => exact fun i => by simp [launchTimers, ih]

theorem getElem?_launchTimers (nexts l : List Word) : ∀ i t : Nat, (launchTimers nexts i l)[t]? =
    (l[t]?).map (fun I => { next := nexts.getD (i + t) 0#32, interval := I, fff := true }) := by
  induction l with
  | nil => exact fun _ _ => rfl
  | cons I l ih =>
    intro i t
    cases t with
    | zero => rfl
    | succ t => simp only [launchTimers, List.getElem?_cons_succ, ih, show i + 1 + t = i + (t + 1) by omega]

/-- Every timer of a launch state is before its first check (R210). -/
theorem fff_launchTimers {nexts l : List Word} {i : Nat} {T : Timer} (h : T ∈ launchTimers nexts i l) : T.fff = true := by
  obtain ⟨t, ht⟩ := List.getElem?_of_mem h
  rw [getElem?_launchTimers] at ht
  obtain ⟨I, -, rfl⟩ := Option.map_eq_some_iff.1 ht
  rfl

/-- The buffer of a launch state is in canonical form and inside its address space. -/
theorem launch_buf_wf (P : Params) (d : LaunchInput) :
    (State.launch P d).buf.wf ∧ (State.launch P d).buf.Within P.bufSize :=
  ⟨Memory.writeBytes_wf _ _ _ Memory.wf_nil,
    Memory.writeBytes_within _ _ _ _ (fun _ h => by cases h) (by simp)⟩

end Sys2Proof.Machine
end

