-- ==== Sys2Proof/Laws/Timers.lean ====
section
/-! SUPPORT. The laws of the due test and of the record a due check leaves (41_timer.md R101, R102). -/
namespace Sys2Proof.Machine
open Sys2Proof

/-- Before the first check a timer is due at every tick value. -/
theorem Timer.isDue_first {T : Timer} (h : T.fff = true) (now : Word) : T.isDue now = true := by simp [Timer.isDue, h]

/-- After it the guard and the unsigned comparison decide. -/
theorem Timer.isDue_later {T : Timer} (h : T.fff = false) (now : Word) :
    T.isDue now = (!guarded T.next now && decide (T.next ≤ now)) := by
  rw [Timer.isDue, h]
  cases guarded T.next now <;> simp

/-- The guard and the comparison in numbers. -/
theorem Timer.isDue_later_iff {T : Timer} (h : T.fff = false) (now : Word) :
    T.isDue now = true ↔
      T.next.toNat ≤ now.toNat ∧ (now.toNat < 2 ^ 31 ∨ 2 ^ 31 ≤ T.next.toNat) := by
  rw [Timer.isDue_later h]
  simp only [guarded, half, Bool.and_eq_true, Bool.not_eq_true', Bool.and_eq_false_iff, decide_eq_true_eq,
    decide_eq_false_iff_not, BitVec.lt_def, BitVec.le_def]
  have : (0x80000000#32).toNat = 2 ^ 31 := rfl
  omega

@[simp] theorem Timer.rearm_next (T : Timer) (now : Word) : (T.rearm now).next = now + T.interval := rfl
@[simp] theorem Timer.rearm_interval (T : Timer) (now : Word) : (T.rearm now).interval = T.interval := rfl
@[simp] theorem Timer.rearm_fff (T : Timer) (now : Word) : (T.rearm now).fff = false := rfl

/-- A check that is not due writes nothing. -/
theorem execTdue_notDue {s : State} {t : Nat} {T : Timer} (h : s.timers[t]? = some T) (hd : T.isDue s.now = false) :
    execTdue t s = .next (s.answer 0#4 0#32) := by
  rw [execTdue_eq h, hd]; rfl

/-- A due check rearms its own record. -/
theorem execTdue_due {s : State} {t : Nat} {T : Timer} (h : s.timers[t]? = some T) (hd : T.isDue s.now = true) :
    execTdue t s = .next ((s.setTimer t (T.rearm s.now)).answer 0#4 1#32) := by
  rw [execTdue_eq h, hd]; rfl

end Sys2Proof.Machine
end

