-- ==== Sys2Proof/Tests/Slice0.lean ====
section
/-! SUPPORT. Tests. The expected values are those of the spec's own rules and of 95_test_vectors.md, named at each test; a
`witness_` theorem gives a concrete case that meets the hypotheses of the statement it is named after, for each of that
statement's clauses, at the ends of the ranges. -/
namespace Sys2Proof.Tests
open Sys2Proof Sys2Proof.Machine

/-- The next state of an outcome. -/
def nextOf : Host.Outcome State Fault Refusal → Option State
  | .next s => some s
  | _ => none

/-- A state whose timer 1 is `T`, at tick value `now`. -/
def timer1 (T : Timer) (now : Word) : State :=
  { State.reset with
    timers := [{ next := 0xDEADBEEF#32, interval := 0x7530#32, fff := true }, T]
    now := now }

/-- A record after its first check. -/
def armed (next interval : Word) : Timer := { next := next, interval := interval, fff := false }

/-- A state with the payload of frame F3 in the buffer. -/
def gpio : State := { State.reset with buf := [(4, 0x47#8), (5, 0x50#8), (6, 0x49#8), (7, 0x4F#8), (8, 0x15#8)] }

/-- The same payload over other contents of the first four bytes, another accumulator and another deadline. -/
def gpioOther : State :=
  { gpio with
    buf := [(0, 0x12#8), (3, 0x78#8), (4, 0x47#8), (5, 0x50#8), (6, 0x49#8), (7, 0x4F#8), (8, 0x15#8), (9, 0xCC#8)]
    acc := 0x12345678#32
    timers := [armed 5#32 0x7530#32, armed 6#32 0x3E8#32] }

/-- The sum of the bytes modulo `2^32`. -/
def byteSum (s : List Byte) : Word := s.foldl (fun a b => a + b.setWidth 32) 0#32

/-- The host presents one word. -/
def presenting (w now : Word) (s : State) : State := { s with pending := [.command w now] }

/-- A command error on the default build: the word's status. -/
def statusOf (w : Word) (s : State) : Option (BitVec 4) := (nextOf (step (presenting w 0#32 s))).map State.rspStatus

/-! ### WellFormed refuses an ill-formed term -/

theorem test_wellFormed_tdue : ¬ (Instr.tdue 65536).WellFormed ∧ (Instr.tdue 65535).WellFormed := by decide
theorem test_wellFormed_bufwr : ¬ (Instr.bufwr 65536 0#8).WellFormed ∧ (Instr.bufwr 65535 0xFF#8).WellFormed := by decide
theorem test_wellFormed_bufrd : ¬ (Instr.bufrd 65536).WellFormed ∧ (Instr.bufrd 65535).WellFormed := by decide
theorem test_wellFormed_frame : ¬ (Instr.frame 65536).WellFormed ∧ (Instr.frame 65535).WellFormed := by decide
theorem test_wellFormed_rest :
    Instr.ckinit.WellFormed ∧ (Instr.ckbyte 0xFF#8).WellFormed ∧ Instr.ckrd.WellFormed := by decide

/-! ### Decoding: op, A, B written out bit by bit from R60 and R62 (vectors E1 to E15, X1 to X17) -/

theorem test_decode_ckinit : decode 0b00000001_0000000000000000_00000000#32 = .ok .ckinit := by decide
theorem test_decode_ckbyte : decode 0b00000010_0000000000000000_11111111#32 = .ok (.ckbyte 0xFF#8) := by decide
theorem test_decode_ckrd : decode 0b00000011_0000000000000000_00000000#32 = .ok .ckrd := by decide
theorem test_decode_tdue : decode 0b00000100_0000000000000001_00000000#32 = .ok (.tdue 1) := by decide
theorem test_decode_bufwr : decode 0b00000101_0000000100000010_01111110#32 = .ok (.bufwr 258 0x7E#8) := by decide
theorem test_decode_bufrd : decode 0b00000110_0000000100000010_00000000#32 = .ok (.bufrd 258) := by decide
theorem test_decode_frame : decode 0b00000111_0000000000011010_00000000#32 = .ok (.frame 26) := by decide

/-- X1, X2, X3. -/
theorem test_decode_illegal : [0x00000000#32, 0xFFFFFFFF#32, 0x08000000#32].all
    (fun w => decode w == .error .illegalOpcode) = true := by decide

/-- X4, X5, X6, X7, X9, X14, X16. -/
theorem test_decode_reserved : [0x01000001#32, 0x03000100#32, 0x02000161#32, 0x04000001#32, 0x04FFFF01#32, 0x06010201#32,
    0x07000001#32].all (fun w => decode w == .error .reservedField) = true := by decide

/-- E1 to E15, the other way. -/
theorem test_encode : [encode .ckinit, encode (.ckbyte 0xFF#8), encode .ckrd, encode (.tdue 1), encode (.bufwr 8 0x15#8),
    encode (.bufrd 3), encode (.frame 255)] =
    [0x01000000#32, 0x020000FF#32, 0x03000000#32, 0x04000100#32, 0x05000815#32, 0x06000300#32, 0x0700FF00#32] := by decide

/-- The table's numbering of a row is R60's. -/
theorem test_decodeTableWord :
    decodeTableWord 32 0x04000100 = some (.tdue 1) ∧ decodeTableWord 32 0x08000000 = none := by decide

/-! ### One step of each command -/

/-- R84, example. -/
theorem test_ckinit_step : (nextOf (exec .ckinit { State.reset with acc := 0x12345678#32 })).map
    (fun t => (t.acc, t.rspStatus, t.rspValue)) = some (0xFFFFFFFF#32, 0#4, 0#32) := by decide

/-- R85, example. -/
theorem test_ckbyte_step : (nextOf (exec (.ckbyte 0x47#8) State.reset)).map State.acc = some 0xC545C441#32 := by decide

/-- K6. -/
theorem test_ckbyte_a : crcStep .isoHdlc 0xFFFFFFFF#32 0x61#8 = 0x174841BC#32 := by decide

/-- R86, example. -/
theorem test_ckrd_step : (nextOf (exec .ckrd { State.reset with acc := 0x7D748277#32 })).map
    (fun t => (t.acc, t.rspValue)) = some (0x7D748277#32, 0x828B7D88#32) := by decide

/-- K30. -/
theorem test_ckrd_reset : (nextOf (exec .ckrd State.reset)).map State.rspValue = some 0#32 := by decide

/-- T7: rearmed from `now`, not from the old deadline. -/
theorem test_tdue_late : (nextOf (exec (.tdue 1) (timer1 (armed 0x3E8#32 0x3E8#32) 0x3E9#32))).map
    (fun t => (t.rspValue, t.timers[1]?)) = some (1#32, some (armed 0x7D1#32 0x3E8#32)) := by decide

/-- T10: the guard. -/
theorem test_tdue_guard : (nextOf (exec (.tdue 1) (timer1 (armed 0x7FFFFFFF#32 0x3E8#32) 0x80000000#32))).map
    (fun t => (t.rspValue, t.timers[1]?)) = some (0#32, some (armed 0x7FFFFFFF#32 0x3E8#32)) := by decide

/-- B3 and R121: the last byte. -/
theorem test_bufwr_last : (nextOf (exec (.bufwr 258 0x7E#8) State.reset)).map
    (fun t => (t.rspStatus, t.buf.read 258, t.buf)) = some (0#4, 0x7E#8, [(258, 0x7E#8)]) := by decide

/-- B8: one past the last byte. -/
theorem test_bufwr_badAddress : (nextOf (exec (.bufwr 259 0#8) gpio)).map (fun t => (t.rspStatus, t.buf)) =
    some (4#4, gpio.buf) := by decide

/-- B4: zero-extended. -/
theorem test_bufrd_zext : (nextOf (exec (.bufrd 4) { State.reset with buf := [(4, 0xFF#8)] })).map State.rspValue =
    some 0x000000FF#32 := by decide

/-- X13. -/
theorem test_bufrd_badAddress : (nextOf (exec (.bufrd 259) gpio)).map (fun t => (t.rspStatus, t.rspValue)) =
    some (4#4, 0#32) := by decide

set_option maxRecDepth 8192 in
/-- F3 in lower case with `0D 0A`, 26 bytes (95_test_vectors.md 2.5). -/
theorem test_frame_lower_crlf :
    (nextOf (exec (.frame 5) { gpio with
      params := { Params.default with hexCase := .lower, lineTerm := [0x0D#8, 0x0A#8] } })).map State.tx =
    some [0x7B#8, 0x7B#8, 0x7B#8, 0x38#8, 0x32#8, 0x38#8, 0x62#8, 0x37#8, 0x64#8, 0x38#8, 0x38#8, 0x34#8, 0x37#8, 0x35#8,
      0x30#8, 0x34#8, 0x39#8, 0x34#8, 0x66#8, 0x31#8, 0x35#8, 0x7D#8, 0x7D#8, 0x7D#8, 0x0D#8, 0x0A#8] := by decide

set_option maxRecDepth 8192 in
/-- F3: what is stored; F13: one past the largest length. -/
theorem test_frame_stores : (nextOf (exec (.frame 5) gpio)).map (fun t => (t.acc, t.buf.readBytes 0 4)) =
      some (0x7D748277#32, [0x82#8, 0x8B#8, 0x7D#8, 0x88#8]) ∧
    (nextOf (exec (.frame 256) gpio)).map (fun t => (t.rspStatus, t.tx, t.acc, t.buf)) =
      some (5#4, [], gpio.acc, gpio.buf) := by decide

/-- The error vectors on the port: X1, X9, X8, X12, X17. -/
theorem test_statuses : [statusOf 0x00000000#32 gpio, statusOf 0x04FFFF01#32 gpio, statusOf 0x04000200#32 gpio,
    statusOf 0x05FFFFFF#32 gpio, statusOf 0x07FFFF00#32 gpio] = [some 1#4, some 2#4, some 3#4, some 4#4, some 5#4] := by
  decide

/-- The word placed at reset runs as the first command: `TDUE 1`, due at once (R106). -/
theorem test_withFetchWord : (nextOf (step (State.reset.withFetchWord 32 0x04000100))).map
    (fun t => (t.rspValue, t.timers[1]?, t.pending)) = some (1#32, some (armed 0x3E8#32 0x3E8#32), []) := by decide

set_option maxRecDepth 8192 in
/-- K15 in another algorithm, the check value of CRC-32/BZIP2 (general knowledge; log entry 2): the mirror bit order. -/
theorem test_crc_msbFirst : crc { init := 0xFFFFFFFF#32, step := .bitSerial 0x04C11DB7#32 .msbFirst, final := .xor 0xFFFFFFFF#32 }
    [0x31#8, 0x32#8, 0x33#8, 0x34#8, 0x35#8, 0x36#8, 0x37#8, 0x38#8, 0x39#8] = 0xFC891918#32 := by decide

/-- S7: lines 0, 2, 4 high; and the report's commands. -/
theorem test_gpioReport : gpioReport [0x47#8, 0x50#8, 0x49#8, 0x4F#8] [true, false, true, false, true, false, false, false] =
    [.bufwr 4 0x47#8, .bufwr 5 0x50#8, .bufwr 6 0x49#8, .bufwr 7 0x4F#8, .bufwr 8 0x15#8, .frame 5] := by decide

/-- S6: a match, and a mismatch in the third byte, which is filled and not framed. -/
theorem test_advertPoll : advertPoll 255 (some [0x99#8, 0x04#8, 0x05#8]) =
      [.bufwr 4 0x99#8, .bufwr 5 0x04#8, .bufwr 6 0x05#8, .frame 3] ∧
    advertPoll 255 (some [0x99#8, 0x04#8, 0x03#8]) = [.bufwr 4 0x99#8, .bufwr 5 0x04#8, .bufwr 6 0x03#8] ∧
    advertPoll 255 (some [0x99#8, 0x04#8]) = [.bufwr 4 0x99#8, .bufwr 5 0x04#8] := by decide

/-! ### Witnesses: the command port and decoding -/

theorem witness_StepRunsTheDecodedCommand : ∃ (s : State) (w now : Word) (rest : List HostInput) (i : Instr),
    s.pending = .command w now :: rest ∧ decode w = .ok i :=
  ⟨presenting 0x04000100#32 0x80000000#32 gpio, _, _, _, .tdue 1, rfl, by decide⟩

/-- One word for each line of the status table, at the ends of each range. -/
theorem witness_StatusOfEveryWord : ([(0x00000000#32, 1#4), (0x08000000#32, 1#4), (0x01000001#32, 2#4),
    (0x03800000#32, 2#4), (0x02000100#32, 2#4), (0x040000FF#32, 2#4), (0x04000200#32, 3#4), (0x04000100#32, 0#4),
    (0x05010300#32, 4#4), (0x050102FF#32, 0#4), (0x06010300#32, 4#4), (0x06010200#32, 0#4), (0x07010000#32, 5#4),
    (0x07000000#32, 0#4)] : List (Word × BitVec 4)).all (fun c => statusOf c.1 gpio == some c.2) = true := by decide

theorem witness_NextCommandRunsAsIfTheFailedOneWasNotSent : ∃ (s t : State) (w : Word),
    runWord w s = .next t ∧ t.rspStatus ≠ 0#4 := ⟨gpio, _, 0x04000200#32, rfl, by decide⟩

theorem witness_ResponseValueOfEachCommand :
    (nextOf (runWord 0x03000000#32 gpio)).map (fun t => (t.rspStatus, t.rspValue)) = some (0#4, 0#32) ∧
    (nextOf (runWord 0x06000400#32 gpio)).map (fun t => (t.rspStatus, t.rspValue)) = some (0#4, 0x47#32) ∧
    (nextOf (runWord 0x04000100#32 gpio)).map (fun t => (t.rspStatus, t.rspValue)) = some (0#4, 1#32) ∧
    (nextOf (runWord 0x07000000#32 gpio)).map (fun t => (t.rspStatus, t.rspValue)) = some (0#4, 0#32) ∧
    gpio.params.crc = .isoHdlc := by decide

theorem witness_IllegalOpcodesRaiseStatusOne :
    (0x00FFFFFF#32).extractLsb' 24 8 = 0x00#8 ∧ 0x08#8 ≤ (0x08000000#32).extractLsb' 24 8 := by decide

theorem witness_ReservedWordsRaiseStatusTwo : (0x0500FFFF#32).extractLsb' 24 8 = 0x05#8 ∧
    decode 0x02FFFF00#32 = .error .reservedField ∧ decode 0x01000001#32 = .error .reservedField ∧
    decode 0x070000FF#32 = .error .reservedField := by decide

theorem witness_DecodeOfEncodeIsTheCommand : Instr.ckinit.WellFormed ∧ (Instr.tdue 65535).WellFormed ∧
    (Instr.bufwr 65535 0xFF#8).WellFormed ∧ (Instr.frame 0).WellFormed := by decide

theorem witness_EncodeOfDecodeIsTheWord : decode 0x05FFFFFF#32 = .ok (.bufwr 65535 0xFF#8) := by decide

theorem witness_AssembledWordsAreSums : (0 : Nat) ≤ 65535 ∧ (65535 : Nat) ≤ 65535 := by decide

/-! ### Witnesses: the checksum accumulator -/

theorem witness_CkinitStartsANewChecksum : State.reset.params.crc = .isoHdlc ∧
    (0x01000000#32).extractLsb' 24 8 = 0x01#8 ∧ (0x01800000#32).extractLsb' 24 8 = 0x01#8 := by decide

theorem witness_CkbyteFoldsOneByte :
    (0x020000FF#32).extractLsb' 24 8 = 0x02#8 ∧ (0x02000100#32).extractLsb' 24 8 = 0x02#8 := by decide

theorem witness_CkrdReturnsTheFinalisedChecksum : (gpio.params.crc = .isoHdlc ∧ ∃ t, exec .ckinit gpio = .next t) ∧
    Params.default.crc = .isoHdlc ∧ (0x03000000#32).extractLsb' 24 8 = 0x03#8 ∧
    { gpio with acc := 0x7D748277#32 }.acc = 0x7D748277#32 := ⟨⟨rfl, _, rfl⟩, rfl, by decide, rfl⟩

theorem witness_ChecksumOfAByteSequence : CrcAlg.isoHdlc.final = .xor 0xFFFFFFFF#32 := rfl

theorem witness_CrcStepByTableLookup : CrcAlg.isoHdlc.step = .bitSerial 0xEDB88320#32 .lsbFirst := rfl

/-- A checksum that is no cyclic redundancy check: the sum of the bytes, tripled. -/
theorem witness_EveryAccumulatorChecksumIsABuild :
    (∀ (s s' : List Byte) (b : Byte), byteSum s = byteSum s' → byteSum (s ++ [b]) = byteSum (s' ++ [b])) ∧
    ∀ s s' : List Byte, byteSum s = byteSum s' → byteSum s * 3#32 = byteSum s' * 3#32 :=
  ⟨fun s s' b h => by simp only [byteSum, List.foldl_append] at *; rw [h], fun _ _ h => by rw [h]⟩

/-- K35: TDUE, BUFWR and BUFRD between the bytes. -/
theorem witness_AccIsTheChecksumOfTheBytesFolded :
    ∀ c ∈ [(Instr.ckbyte 0x31#8, 0#32), (.tdue 1, 5#32), (.bufwr 4 0x99#8, 5#32), (.bufrd 4, 5#32), (.ckrd, 6#32),
      (.ckbyte 0x32#8, 7#32)], c.1.WellFormed ∧ restartsAcc c.1 = false := by
  simp [Instr.WellFormed, Instr.wellFormed, fitsFieldA, restartsAcc]

theorem witness_CksumAgreesWithSend : gpioOther.params = gpio.params ∧ gpio.params.Ok ∧
    ([] : List Byte).length ≤ gpio.params.maxLen ∧ (List.replicate 255 0xA5#8).length ≤ gpio.params.maxLen :=
  ⟨rfl, by decide, by decide, by rw [List.length_replicate]; decide⟩

/-! ### Witnesses: the timer scheduler -/

/-- The four branches: before the first check; guarded; due; early. And a bad index, and a reserved word. -/
theorem witness_TdueChecksAndRearms : gpio.timers.length ≤ 2 ∧ gpio.timers[1]?.map Timer.fff = some true ∧
    ((0x7FFFFFFF#32 : Word) < 0x80000000#32 ∧ (0x80000000#32 : Word) ≤ (timer1 (armed 0x7FFFFFFF#32 1#32) 0x80000000#32).now) ∧
    (¬ ((0x80000000#32 : Word) < 0x80000000#32 ∧ (0x80000000#32 : Word) ≤ 0x80000000#32) ∧ (0x80000000#32 : Word) ≤ 0x80000000#32) ∧
    (¬ ((0x80000000#32 : Word) < 0x80000000#32 ∧ (0x80000000#32 : Word) ≤ 0x7FFFFFFF#32) ∧ (0x7FFFFFFF#32 : Word) < 0x80000000#32) ∧
    (timer1 (armed 0x80000000#32 1#32) 0x7FFFFFFF#32).timers[1]? = some (armed 0x80000000#32 1#32) ∧
    (0x040000FF#32).extractLsb' 24 8 = 0x04#8 := by decide

theorem reset_is_launch : Launch State.reset := by
  unfold Launch
  decide

/-- A launch state in which the host presents what comes before the last line of Q5: two checks of timer 1. -/
def beforeCheck0 : State :=
  { State.reset with pending := [.command 0x04000100#32 0x10#32, .command 0x04000100#32 0x11#32] }

/-- The first command after reset, and (Q5) the first check of timer 0 after two checks of timer 1. -/
theorem witness_FirstCheckAfterResetFires :
    (Launch State.reset ∧ runSteps 0 State.reset = .next State.reset ∧
      State.reset.params.intervals[1]? = some 0x000003E8#32) ∧
    ∃ s' : State, Launch beforeCheck0 ∧ runSteps 2 beforeCheck0 = .next s' ∧
      (∀ x ∈ beforeCheck0.pending.take 2, x.isOtherThanCheckOf 0 = true) ∧
      beforeCheck0.params.intervals[0]? = some 0x00007530#32 ∧ s'.timers[1]? = some (armed 0x3F8#32 0x3E8#32) := by
  refine ⟨⟨reset_is_launch, rfl, rfl⟩, _, ?_, rfl, by decide, rfl, by decide⟩
  unfold Launch
  decide

theorem witness_DueExactlyInTheSameHalf :
    (timer1 (armed 0x7FFFFFFF#32 0x3E8#32) 0x7FFFFFFF#32).timers[1]? = some (armed 0x7FFFFFFF#32 0x3E8#32) ∧
    (armed 0x7FFFFFFF#32 0x3E8#32).fff = false := by decide

/-- In and out of the window, in each half, at its ends. -/
theorem witness_DueExactlyInTheWindow : InWindow 0x7FFFFFFF#32 0x7FFFFFFF#32 ∧ ¬ InWindow 0x7FFFFFFF#32 0x80000000#32 ∧
    InWindow 0x80000000#32 0xFFFFFFFF#32 ∧ ¬ InWindow 0x80000000#32 0x7FFFFFFF#32 ∧
    (0x7FFFFFFF#32).toNat < 2 ^ 31 ∧ 2 ^ 31 ≤ (0x80000000#32).toNat := by
  unfold InWindow windowEnd
  decide

/-- The largest interval the rule allows, at the last tick before it ends. -/
theorem witness_NoFireBeforeTheIntervalEnds : ∃ (s u s' : State) (T : Timer) (d : Nat), s.timers[1]? = some T ∧
    T.interval.toNat ≤ 2 ^ 31 ∧ exec (.tdue 1) s = .next u ∧ u.rspStatus = 0#4 ∧ u.rspValue = 1#32 ∧
    s'.timers[1]? = u.timers[1]? ∧ d < T.interval.toNat ∧ s'.now = s.now + BitVec.ofNat 32 d :=
  ⟨timer1 (armed 0#32 0x80000000#32) 5#32, _, timer1 (armed 0x80000005#32 0x80000000#32) 0x80000004#32,
    armed 0#32 0x80000000#32, 2 ^ 31 - 1, by decide, by decide, rfl, by decide, by decide, by decide, by decide, by decide⟩

/-- The two larger intervals of R107. -/
theorem witness_NoFireBeforeTheIntervalEnds_large :
    (∃ u : State, exec (.tdue 1) (timer1 { next := 0#32, interval := 0x90000001#32, fff := true } 0xF0000000#32) = .next u ∧
      u.rspStatus = 0#4 ∧ u.rspValue = 1#32 ∧
      (timer1 (armed 0x80000001#32 0x90000001#32) 0xF0000001#32).timers[1]? = u.timers[1]?) ∧
    ∃ u : State, exec (.tdue 1) (timer1 { next := 0#32, interval := 0xF8000000#32, fff := true } 0x10000000#32) = .next u ∧
      u.rspStatus = 0#4 ∧ u.rspValue = 1#32 ∧
      (timer1 (armed 0x08000000#32 0xF8000000#32) 0x10000001#32).timers[1]? = u.timers[1]? :=
  ⟨⟨_, rfl, by decide, by decide, by decide⟩, ⟨_, rfl, by decide, by decide, by decide⟩⟩

/-- The first tick too late, and the largest lateness. -/
theorem witness_DueExactlyWhileLateWithinTheHalf :
    (timer1 (armed 0x7FFFFFFE#32 0x3E8#32) 0x80000000#32).now = 0x7FFFFFFE#32 + BitVec.ofNat 32 2 ∧
    (timer1 (armed 0x7FFFFFFE#32 0x3E8#32) 0x7FFFFFFD#32).now = 0x7FFFFFFE#32 + BitVec.ofNat 32 (2 ^ 32 - 1) ∧
    (timer1 (armed 0x7FFFFFFF#32 0x3E8#32) 0x7FFFFFFF#32).timers[1]? = some (armed 0x7FFFFFFF#32 0x3E8#32) := by decide

theorem witness_BoundaryTableOfTheDueTest :
    (timer1 (armed 0x7FFFFFFF#32 0x3E8#32) 0x80000000#32).timers[1]? =
      some { next := 0x7FFFFFFF#32, interval := 0x3E8#32, fff := false } ∧
    (timer1 (armed 0x7FFFFFFF#32 0x3E8#32) 0x80000000#32).now = 0x80000000#32 := by decide

/-- Intervals 1, `2^31` and 0. -/
theorem witness_RepeatedChecksAndZeroInterval : ([1#32, 0x80000000#32, 0#32] : List Word).all (fun I =>
    (nextOf (exec (.tdue 1) (timer1 (armed 4#32 I) 4#32))).map (fun u => (u.rspStatus, u.rspValue, u.timers[1]?)) ==
      some (0#4, 1#32, some (armed (4#32 + I) I))) = true := by decide

theorem witness_RepeatedChecks_window : InWindow 4#32 5#32 ∧ ¬ InWindow 4#32 0x80000000#32 := by
  unfold InWindow windowEnd
  decide

theorem witness_TimersAreIndependent : (0 : Nat) ≠ 1 := by decide

theorem witness_TimerRecordsChangeByTheirOwnCheckOnly : ∃ s s' : State, step s = .next s' ∧
    (∀ (d : LaunchInput) (rest : List HostInput), s.pending ≠ .reset d :: rest) ∧ s'.timers[1]? ≠ s.timers[1]? :=
  ⟨presenting 0x04000100#32 7#32 State.reset, _, rfl, fun _ _ h => (by cases h), by decide⟩

theorem witness_DeadlineIsTheLatestDueCheckPlusInterval :
    (∃ s' : State, step (presenting 0x04000100#32 7#32 State.reset) = .next s' ∧ s'.rspStatus = 0#4) ∧
    ∃ s' : State, Launch (presenting 0x04000100#32 7#32 State.reset) ∧
      (∀ x ∈ (presenting 0x04000100#32 7#32 State.reset).pending, x.isCommand = true) ∧
      runSteps 1 (presenting 0x04000100#32 7#32 State.reset) = .next s' ∧
      s'.timers[1]? = some (armed 0x3EF#32 0x3E8#32) ∧
      lastDue 1 1 (presenting 0x04000100#32 7#32 State.reset) = some 7#32 ∧
      lastDue 0 1 (presenting 0x04000100#32 7#32 State.reset) = none := by
  refine ⟨⟨_, rfl, by decide⟩, _, ?_, by decide, rfl, by decide, by decide, by decide⟩
  unfold Launch
  decide

/-! ### Witnesses: the payload buffer -/

theorem witness_BufwrStoresOneByte : 258 < gpio.params.maxLen + 4 ∧ gpio.params.maxLen + 4 ≤ 259 ∧
    (gpio.buf.wf ∧ gpio.buf.read 4 = 0x47#8) ∧ (65535 : Nat) ≤ 65535 ∧ (0x05FFFFFF#32).extractLsb' 24 8 = 0x05#8 := by
  decide

theorem witness_BufrdReturnsOneByte : (258 < gpio.params.maxLen + 4 ∧ gpio.params.maxLen + 4 ≤ 259) ∧
    (5 ≤ gpio.params.maxLen ∧ ∃ t, exec (.frame 5) gpio = .next t) ∧
    ((0x060000FF#32).extractLsb' 24 8 = 0x06#8 ∧ (65535 : Nat) ≤ 65535) :=
  ⟨by decide, ⟨by decide, _, rfl⟩, by decide⟩

/-- The bytes right below and right above the word. -/
theorem witness_WordStoreIsBigEndian : (3 < 4 ∨ 4 + 4 ≤ 3) ∧ (8 < 4 ∨ 4 + 4 ≤ 8) := by decide

/-! ### Witnesses: the framer -/

theorem witness_HexDigitsAndBytes : (9#4).toNat < 10 ∧ 10 ≤ (10#4).toNat ∧ 10 ≤ (15#4).toNat ∧ (0x0F#8).toNat ≤ 15 := by
  decide

theorem witness_FrameChecksumsStoresAndSends : (0 ≤ gpio.params.maxLen ∧ 255 ≤ gpio.params.maxLen) ∧
    gpio.params.maxLen < 256 ∧ (0x070000FF#32).extractLsb' 24 8 = 0x07#8 ∧
    (gpio.params = Params.default ∧ gpio.buf.read 4 = 0x47#8 ∧ gpio.buf.read 5 = 0x50#8 ∧ gpio.buf.read 6 = 0x49#8 ∧
      gpio.buf.read 7 = 0x4F#8 ∧ gpio.buf.read 8 = 0x15#8) := by decide

theorem witness_CkrdAfterFrameReturnsItsChecksum : 0 ≤ gpio.params.maxLen ∧ 255 ≤ gpio.params.maxLen := by decide

theorem witness_SmallestAndLargestFrame : gpio.params.crc = .isoHdlc := by decide

/-- Different contents everywhere but in the payload. -/
theorem witness_FrameDependsOnThePayloadOnly : (gpioOther.params = gpio.params ∧ 5 ≤ gpio.params.maxLen ∧
    ∀ x : Nat, 4 ≤ x → x < 4 + 5 → gpioOther.buf.read x = gpio.buf.read x) ∧ gpioOther.buf.read 0 ≠ gpio.buf.read 0 := by
  refine ⟨⟨rfl, by decide, fun x h h' => ?_⟩, by decide⟩
  obtain rfl | rfl | rfl | rfl | rfl : x = 4 ∨ x = 5 ∨ x = 6 ∨ x = 7 ∨ x = 8 := by omega
  all_goals decide

theorem witness_FramingRoundTrip :
    5 ≤ gpio.params.maxLen ∧ 0x46#8 ∈ [0x0F#8].flatMap (hexByte .upper) := by decide

theorem witness_ChecksumBytesMatchTheBytesAfterThem : 0 ≤ gpio.params.maxLen ∧ 255 ≤ gpio.params.maxLen := by decide

/-! ### Witnesses: frames -/

theorem witness_NonStoringCommandsKeepBufferAndStream : (∃ t, exec .ckinit gpio = .next t) ∧
    (∃ t, exec (.ckbyte 1#8) gpio = .next t) ∧ (∃ t, exec .ckrd gpio = .next t) ∧ (∃ t, exec (.tdue 1) gpio = .next t) ∧
    (∃ t, exec (.bufrd 258) gpio = .next t) :=
  ⟨⟨_, rfl⟩, ⟨_, rfl⟩, ⟨_, rfl⟩, ⟨_, rfl⟩, ⟨_, rfl⟩⟩

theorem witness_StoringCommandsKeepOtherBytes : (∃ t, exec (.bufwr 258 1#8) gpio = .next t) ∧
    ((∃ t, exec (.bufwr 259 1#8) gpio = .next t) ∧ gpio.params.maxLen + 4 ≤ 259) ∧ (∃ t, exec (.frame 255) gpio = .next t) ∧
    ((∃ t, exec (.frame 256) gpio = .next t) ∧ gpio.params.maxLen < 256) :=
  ⟨⟨_, rfl⟩, ⟨⟨_, rfl⟩, by decide⟩, ⟨_, rfl⟩, ⟨_, rfl⟩, by decide⟩

/-! ### Witnesses: the whole machine -/

theorem witness_OnlyTdueReadsTheClock : (∀ u : Nat, Instr.frame 5 ≠ .tdue u) ∧ ∃ t, exec (.frame 5) gpio = .next t :=
  ⟨fun _ h => (by cases h), _, rfl⟩

theorem witness_ParametersNeverChange : ∃ s' : State, runSteps 2
    { gpio with pending := [.command 0x07000500#32 0#32, .reset { nexts := [], bytes := [] }] } = .next s' := ⟨_, rfl⟩

set_option maxRecDepth 8192 in
/-- A state with a frame on its stream. -/
theorem witness_EveryStepKeepsTheInvariant :
    Inv { gpio with tx := wireFrame Params.default [0x99#8, 0x04#8, 0x05#8], pending := [.command 0x07000500#32 0#32] } ∧
    ∃ s' : State, step { gpio with
      tx := wireFrame Params.default [0x99#8, 0x04#8, 0x05#8], pending := [.command 0x07000500#32 0#32] } = .next s' := by
  refine ⟨⟨by decide, by decide, by decide, by decide, ⟨[[0x99#8, 0x04#8, 0x05#8]], ?_, ?_⟩, ?_⟩, _, rfl⟩
  · intro p hp
    obtain rfl := List.mem_singleton.1 hp
    decide
  · decide
  · unfold LegalResponse
    decide

theorem witness_LaunchStatesMeetTheInvariant : Params.default.Ok := by decide

theorem witness_StreamIsTheFramesInCommandOrder : ∃ s' : State,
    (∀ x ∈ [HostInput.command 0x07000500#32 0#32, .command 0x07000000#32 0#32], x.isCommand = true) ∧
    runSteps 2 { gpio with pending := [.command 0x07000500#32 0#32, .command 0x07000000#32 0#32] } = .next s' ∧
    framedPayloads 2 { gpio with pending := [.command 0x07000500#32 0#32, .command 0x07000000#32 0#32] } =
      [[0x47#8, 0x50#8, 0x49#8, 0x4F#8, 0x15#8], []] := ⟨_, by decide, rfl, by decide⟩

/-- The last timer and the last byte. -/
theorem witness_ResetValues : ([1#32, 2#32] : List Word).length = Params.default.nTimers ∧
    (List.replicate 259 0xA5#8).length = Params.default.bufSize ∧
    (Params.default.intervals[1]? = some 0x3E8#32 ∧ ([1#32, 2#32] : List Word)[1]? = some 2#32) ∧
    Params.default.crc = .isoHdlc ∧ (List.replicate 259 0xA5#8)[258]? = some 0xA5#8 :=
  ⟨rfl, by rw [List.length_replicate]; decide, ⟨rfl, rfl⟩, rfl, by rw [List.getElem?_replicate]; decide⟩

theorem witness_ResetPortRelaunches : ∃ (s : State) (d : LaunchInput) (rest : List HostInput),
    s.pending = .reset d :: rest ∧ s.tx ≠ [] :=
  ⟨{ gpio with tx := [0x7B#8], pending := [.reset { nexts := [1#32], bytes := [2#8] }] }, _, _, rfl, by decide⟩

theorem witness_LaunchStatesAreTheResetStates : Params.default.Ok ∧ Launch State.reset := ⟨by decide, reset_is_launch⟩

theorem witness_IdleKeepsAllState : gpio.pending = [] := rfl

theorem witness_PlacedWordRunsNext : decodeTableWord 32 0x07000500 = some (.frame 5) := by decide

theorem witness_SampleMaskBits : [true, false, true, false, true, false, false, true].length = 8 ∧ 0 < 8 ∧ 7 < 8 := by decide

theorem witness_FilterForwardsTheSignature : ([0x99#8, 0x04#8, 0x05#8] : List Byte).length ≤ 3 ∧
    5 < ([0x99#8, 0x04#8, 0x05#8, 0x00#8, 0x00#8, 0x00#8] : List Byte).length ∧
    forwards [0x99#8, 0x04#8, 0x05#8] = true ∧ forwards [0x99#8, 0x04#8] = false ∧ forwards [] = false := by decide

end Sys2Proof.Tests
end

section
/-! What a command and a step can do, said once as inversion lemmas, and what every step keeps. -/
namespace Sys2Proof.Machine
open Sys2Proof

/-- Everything the commands do: `CommandEffect s i s'` says that `i` takes `s` to `s'`, one constructor for each outcome
of each command, with the condition under which it comes about. -/
inductive CommandEffect (s : State) : Instr → State → Prop where
  | ckinit : CommandEffect s .ckinit ((s.withAcc s.params.crc.init).answer 0#4 0#32)
  | ckbyte (b : Byte) : CommandEffect s (.ckbyte b) ((s.withAcc (crcStep s.params.crc s.acc b)).answer 0#4 0#32)
  | ckrd : CommandEffect s .ckrd (s.answer 0#4 (crcFinal s.params.crc s.acc))
  | tdueBadTimer {t : Nat} (ht : s.timers[t]? = none) : CommandEffect s (.tdue t) (s.answer 3#4 0#32)
  | tdueNotDue {t : Nat} {T : Timer} (ht : s.timers[t]? = some T) (hd : T.isDue s.now = false) :
      CommandEffect s (.tdue t) (s.answer 0#4 0#32)
  | tdueDue {t : Nat} {T : Timer} (ht : s.timers[t]? = some T) (hd : T.isDue s.now = true) :
      CommandEffect s (.tdue t) ((s.setTimer t (T.rearm s.now)).answer 0#4 1#32)
  | bufwr {a : Nat} (b : Byte) (ha : a < s.params.maxLen + 4) :
      CommandEffect s (.bufwr a b) ((s.withBuf (s.buf.write a b)).answer 0#4 0#32)
  | bufwrBadAddress {a : Nat} (b : Byte) (ha : s.params.maxLen + 4 ≤ a) :
      CommandEffect s (.bufwr a b) (s.answer 4#4 0#32)
  | bufrd {a : Nat} (ha : a < s.params.maxLen + 4) :
      CommandEffect s (.bufrd a) (s.answer 0#4 ((s.buf.read a).setWidth 32))
  | bufrdBadAddress {a : Nat} (ha : s.params.maxLen + 4 ≤ a) : CommandEffect s (.bufrd a) (s.answer 4#4 0#32)
  | frame {n : Nat} (hn : n ≤ s.params.maxLen) :
      CommandEffect s (.frame n) ((((s.withAcc (crcAcc s.params.crc (s.payload n))).withBuf (s.checksummedBuf n)).send
        (wireFrame s.params (s.payload n))).answer 0#4 0#32)
  | frameBadLength {n : Nat} (hn : s.params.maxLen < n) : CommandEffect s (.frame n) (s.answer 5#4 0#32)

theorem CommandEffect.exec_eq {i : Instr} {s s' : State} (h : CommandEffect s i s') : exec i s = .next s' := by
  cases h with
  | ckinit => exact execCkinit_eq s
  | ckbyte b => exact execCkbyte_eq b s
  | ckrd => exact execCkrd_eq s
  | tdueBadTimer ht => exact execTdue_badTimer ht
  | tdueNotDue ht hd => exact execTdue_notDue ht hd
  | tdueDue ht hd => exact execTdue_due ht hd
  | bufwr b ha => exact execBufwr_eq b ha
  | bufwrBadAddress b ha => exact execBufwr_badAddress b ha
  | bufrd ha => exact execBufrd_eq ha
  | bufrdBadAddress ha => exact execBufrd_badAddress ha
  | frame hn => exact execFrame_eq hn
  | frameBadLength hn => exact execFrame_badLength hn

theorem exists_commandEffect (i : Instr) (s : State) : ∃ s', CommandEffect s i s' := by
  cases i with
  | ckinit => exact ⟨_, .ckinit⟩
  | ckbyte b => exact ⟨_, .ckbyte b⟩
  | ckrd => exact ⟨_, .ckrd⟩
  | tdue t =>
    rcases ht : s.timers[t]? with _ | T
    · exact ⟨_, .tdueBadTimer ht⟩
    · rcases hd : T.isDue s.now with _ | _
      · exact ⟨_, .tdueNotDue ht hd⟩
      · exact ⟨_, .tdueDue ht hd⟩
  | bufwr a b => exact (lt_or_ge a _).elim (fun h => ⟨_, .bufwr b h⟩) (fun h => ⟨_, .bufwrBadAddress b h⟩)
  | bufrd a => exact (lt_or_ge a _).elim (fun h => ⟨_, .bufrd h⟩) (fun h => ⟨_, .bufrdBadAddress h⟩)
  | frame n => exact (le_or_gt n _).elim (fun h => ⟨_, .frame h⟩) (fun h => ⟨_, .frameBadLength h⟩)

theorem exec_eq_next_iff {i : Instr} {s s' : State} : exec i s = .next s' ↔ CommandEffect s i s' := by
  refine ⟨fun h => ?_, CommandEffect.exec_eq⟩
  obtain ⟨u, hu⟩ := exists_commandEffect i s
  obtain rfl : u = s' := Host.Outcome.next.inj (hu.exec_eq.symm.trans h)
  exact hu

theorem CommandEffect.params_eq {i : Instr} {s s' : State} (h : CommandEffect s i s') : s'.params = s.params := by
  cases h <;> rfl

theorem CommandEffect.pending_eq {i : Instr} {s s' : State} (h : CommandEffect s i s') : s'.pending = s.pending := by
  cases h <;> rfl

@[simp] theorem State.take_payload (s : State) (now : Word) (rest : List HostInput) (n : Nat) :
    (s.take now rest).payload n = s.payload n := rfl

theorem State.getElem?_setTimer_self {s : State} {t : Nat} {T : Timer} (h : s.timers[t]? = some T) (T' : Timer) :
    (s.setTimer t T').timers[t]? = some T' := by
  rw [State.setTimer_timers, List.getElem?_set_self', h]
  rfl

/-- Only a TDUE of `t` changes timer record `t` (R23). -/
theorem CommandEffect.timer_eq {i : Instr} {s s' : State} {t : Nat} (h : CommandEffect s i s') (hi : i ≠ .tdue t) :
    s'.timers[t]? = s.timers[t]? := by
  cases h with
  | @tdueDue u T ht hd => exact List.getElem?_set_ne fun hut => hi (congrArg Instr.tdue hut)
  | _ => rfl

/-- Only FRAME sends (R31). -/
theorem CommandEffect.tx_eq {i : Instr} {s s' : State} (h : CommandEffect s i s') (hi : ∀ n, i ≠ .frame n) :
    s'.tx = s.tx := by
  cases h with
  | @frame n hn => exact absurd rfl (hi n)
  | _ => rfl

/-- Everything one step can do: CORE is idle, resets, rejects a word that does not decode, or runs a command. -/
inductive StepEffect (s : State) : State → Prop where
  | idle (hp : s.pending = []) : StepEffect s s
  | reset {d : LaunchInput} {rest : List HostInput} (hp : s.pending = .reset d :: rest) :
      StepEffect s { State.launch s.params d with now := s.now, pending := rest }
  | badWord {w now : Word} {rest : List HostInput} {e : CmdError} (hp : s.pending = .command w now :: rest)
      (hw : decode w = .error e) : StepEffect s ((s.take now rest).answer (errorCode e) 0#32)
  | command {w now : Word} {rest : List HostInput} {i : Instr} {s' : State} (hp : s.pending = .command w now :: rest)
      (hw : decode w = .ok i) (hi : CommandEffect (s.take now rest) i s') : StepEffect s s'

theorem stepEffect_of_step {s s' : State} (h : step s = .next s') : StepEffect s s' := by
  rcases hp : s.pending with _ | ⟨⟨w, now⟩ | d, rest⟩
  · obtain rfl := Host.Outcome.next.inj ((step_idle hp).symm.trans h)
    exact .idle hp
  · rw [step_command hp] at h
    rcases hw : decode w with e | i
    · obtain rfl := Host.Outcome.next.inj ((runWord_error hw _).symm.trans h)
      exact .badWord hp hw
    · exact .command hp hw (exec_eq_next_iff.1 ((runWord_ok hw _).symm.trans h))
  · obtain rfl := Host.Outcome.next.inj ((step_reset hp).symm.trans h)
    exact .reset hp

/-- No step changes the build (R10). -/
theorem step_params {s s' : State} (h : step s = .next s') : s'.params = s.params := by
  cases stepEffect_of_step h with
  | command hp hw hi => exact hi.params_eq
  | _ => rfl

/-- A step takes the host's next input, if there is one. -/
theorem step_pending {s s' : State} (h : step s = .next s') : s'.pending = s.pending.tail := by
  cases stepEffect_of_step h with
  | idle hp => simp [hp]
  | reset hp => simp [hp]
  | badWord hp hw => simp [hp]
  | command hp hw hi => simp [hp, hi.pending_eq]

/-- The host presents commands only: no reset is among its inputs to come. -/
abbrev State.CommandsOnly (s : State) : Prop := ∀ x ∈ s.pending, x.isCommand = true

theorem State.CommandsOnly.not_reset {s : State} {d : LaunchInput} {rest : List HostInput} (h : s.CommandsOnly) :
    s.pending ≠ .reset d :: rest := fun hp => by
  simpa [HostInput.isCommand] using h (.reset d) (hp ▸ List.mem_cons_self)

theorem State.CommandsOnly.step {s s' : State} (hc : s.CommandsOnly) (h : step s = .next s') : s'.CommandsOnly :=
  fun x hx => hc x (List.mem_of_mem_tail (step_pending h ▸ hx))

/-- A run of one step more begins with a step. -/
theorem runSteps_succ_eq_next {k : Nat} {s s' : State} (h : runSteps (k + 1) s = .next s') :
    ∃ u, step s = .next u ∧ runSteps k u = .next s' := by
  rcases hs : step s with u | r | r
  · exact ⟨u, rfl, (runSteps_succ hs).symm.trans h⟩
  · cases r
  · simp [runSteps, hs] at h

end Sys2Proof.Machine
end

section
/-! The output stream over a run (R32, R53): each step appends the frame of the payload it frames. -/
namespace Sys2Proof.Machine
open Sys2Proof

theorem frameNow_idle {s : State} (hp : s.pending = []) : frameNow s = [] := by simp [frameNow, hp]

theorem frameNow_badWord {s : State} {w now : Word} {rest : List HostInput} {e : CmdError}
    (hp : s.pending = .command w now :: rest) (hw : decode w = .error e) : frameNow s = [] := by
  simp [frameNow, hp, hw]

theorem frameNow_frame {s : State} {w now : Word} {rest : List HostInput} {n : Nat}
    (hp : s.pending = .command w now :: rest) (hw : decode w = .ok (.frame n)) :
    frameNow s = if n ≤ s.params.maxLen then [s.payload n] else [] := by
  simp [frameNow, hp, hw, payload_eq_map]

theorem frameNow_of_ne_frame {s : State} {w now : Word} {rest : List HostInput} {i : Instr}
    (hp : s.pending = .command w now :: rest) (hw : decode w = .ok i) (hi : ∀ n, i ≠ .frame n) : frameNow s = [] := by
  cases i with
  | frame n => exact absurd rfl (hi n)
  | _ => simp [frameNow, hp, hw]

theorem framedPayloads_succ {k : Nat} {s u : State} (h : step s = .next u) :
    framedPayloads (k + 1) s = frameNow s ++ framedPayloads k u := by
  simp [framedPayloads, h]

/-- A step that is no reset appends the frame of the payload it frames, or nothing (R32). -/
theorem step_tx {s s' : State} (hc : s.CommandsOnly) (h : step s = .next s') :
    s'.tx = s.tx ++ (frameNow s).flatMap (wireFrame s.params) := by
  cases stepEffect_of_step h with
  | idle hp => simp [frameNow_idle hp]
  | reset hp => exact absurd hp hc.not_reset
  | badWord hp hw => simp [frameNow_badWord hp hw]
  | @command w now rest i _ hp hw hi =>
    by_cases hf : ∃ n, i = .frame n
    · obtain ⟨n, rfl⟩ := hf
      rw [frameNow_frame hp hw]
      cases hi with
      | frame hn =>
        rw [State.take_params] at hn
        simp [hn]
      | frameBadLength hn =>
        rw [State.take_params] at hn
        simp [not_le.2 hn]
    · have hne : ∀ n, i ≠ .frame n := not_exists.1 hf
      simp [frameNow_of_ne_frame hp hw hne, hi.tx_eq hne]

/-- Settles O51, by induction on the number of steps from `step_tx`: what a run appends is what its first step appends,
then what the rest of it does. -/
theorem streamIsTheFramesInCommandOrder : Obligations.StreamIsTheFramesInCommandOrder := by
  intro k
  induction k with
  | zero =>
    intro s s' _ h
    obtain rfl := Host.Outcome.next.inj h
    simp [framedPayloads]
  | succ k ih =>
    intro s s' hc h
    obtain ⟨u, hu, hr⟩ := runSteps_succ_eq_next h
    rw [ih u s' (State.CommandsOnly.step hc hu) hr, step_tx hc hu, step_params hu, framedPayloads_succ hu,
      List.flatMap_append, List.append_assoc]

end Sys2Proof.Machine
end

section
/-! A timer record over a run (R27): it is the record at the start of the run, rearmed at the latest due check. -/
namespace Sys2Proof.Machine
open Sys2Proof

/-- The record once its latest due check, if there was one, was at this tick value. -/
def Timer.afterDue (T : Timer) : Option Word → Timer
  | none => T
  | some n => T.rearm n

@[simp] theorem Timer.afterDue_none (T : Timer) : T.afterDue none = T := rfl

@[simp] theorem Timer.afterDue_some (T : Timer) (n : Word) : T.afterDue (some n) = T.rearm n := rfl

@[simp] theorem Timer.afterDue_interval (T : Timer) (due : Option Word) : (T.afterDue due).interval = T.interval := by
  cases due <;> rfl

/-- A later due check replaces an earlier one: a record is rearmed from the tick value, not from its deadline (R102). -/
theorem Timer.afterDue_afterDue (T : Timer) (due later : Option Word) :
    (T.afterDue due).afterDue later = T.afterDue (later.or due) := by
  cases due <;> cases later <;> rfl

theorem dueNow_idle {s : State} (t : Nat) (hp : s.pending = []) : dueNow t s = none := by simp [dueNow, hp]

theorem dueNow_of_decode_ne {s : State} {t : Nat} {w now : Word} {rest : List HostInput}
    (hp : s.pending = .command w now :: rest) (hw : decode w ≠ .ok (.tdue t)) : dueNow t s = none := by
  rcases hs : step s with u | r | r <;> simp [dueNow, hp, hs, hw]

theorem dueNow_tdue {s s' : State} {t : Nat} {w now : Word} {rest : List HostInput}
    (hp : s.pending = .command w now :: rest) (hw : decode w = .ok (.tdue t)) (hs : step s = .next s') :
    dueNow t s = if s'.rspStatus = 0#4 ∧ s'.rspValue = 1#32 then some now else none := by
  simp [dueNow, hp, hs, hw]

@[simp] theorem lastDue_zero (t : Nat) (s : State) : lastDue t 0 s = none := rfl

theorem lastDue_succ {k t : Nat} {s u : State} (h : step s = .next u) :
    lastDue t (k + 1) s = (lastDue t k u).or (dueNow t s) := by
  cases hl : lastDue t k u <;> simp [lastDue, h, hl]

/-- A step that is no reset rearms record `t` if it answers due for timer `t`, and leaves it otherwise. -/
theorem step_timer {s s' : State} (t : Nat) (hc : s.CommandsOnly) (h : step s = .next s') :
    s'.timers[t]? = s.timers[t]?.map (·.afterDue (dueNow t s)) := by
  cases stepEffect_of_step h with
  | idle hp => simp [dueNow_idle t hp]
  | reset hp => exact absurd hp hc.not_reset
  | badWord hp hw => simp [dueNow_of_decode_ne (t := t) hp (by simp [hw])]
  | @command w now rest i _ hp hw hi =>
    by_cases hit : i = .tdue t
    · subst hit
      rw [dueNow_tdue hp hw h]
      cases hi with
      | tdueBadTimer ht => simp
      | tdueNotDue ht hd => simp
      | tdueDue ht hd =>
        rw [State.answer_timers, State.getElem?_setTimer_self ht]
        rw [State.take_timers] at ht
        simp [ht]
    · simp [dueNow_of_decode_ne (t := t) hp (by simpa [hw] using hit), hi.timer_eq hit]

/-- The invariant behind R27, with the latest due check as its history variable. -/
theorem runSteps_timer (t k : Nat) : ∀ s s' : State, s.CommandsOnly → runSteps k s = .next s' →
    s'.timers[t]? = s.timers[t]?.map (·.afterDue (lastDue t k s)) := by
  induction k with
  | zero =>
    intro s s' _ h
    obtain rfl := Host.Outcome.next.inj h
    simp
  | succ k ih =>
    intro s s' hc h
    obtain ⟨u, hu, hr⟩ := runSteps_succ_eq_next h
    rw [ih u s' (hc.step hu) hr, step_timer t hc hu, lastDue_succ hu]
    simp [Function.comp_def, Timer.afterDue_afterDue]

/-- A TDUE that ends with status 0 leaves `fff` of its record clear: one that is not due found it clear (R27, R35). -/
theorem CommandEffect.tdue_clears_fff {s s' : State} {t : Nat} (h : CommandEffect s (.tdue t) s')
    (hok : s'.rspStatus = 0#4) : ∃ T : Timer, s'.timers[t]? = some T ∧ T.fff = false := by
  cases h with
  | tdueBadTimer ht => simp at hok
  | @tdueNotDue _ T ht hd =>
    refine ⟨T, ht, Bool.eq_false_iff.2 fun hf => ?_⟩
    rw [Timer.isDue_first hf] at hd
    cases hd
  | @tdueDue _ T ht hd => exact ⟨T.rearm s.now, State.getElem?_setTimer_self ht _, rfl⟩

/-- Settles O31: the record after a run is the launch record, which has `fff` set, rearmed at the latest due check
(`runSteps_timer`). -/
theorem deadlineIsTheLatestDueCheckPlusInterval : Obligations.DeadlineIsTheLatestDueCheckPlusInterval := by
  refine ⟨fun s s' w now rest t hp hw h hok => ?_, fun s s' k t T hl hc h hT => ?_⟩
  · rw [step_command hp, runWord_ok hw] at h
    exact (exec_eq_next_iff.1 h).tdue_clears_fff hok
  · obtain ⟨-, hintervals, hfff, -⟩ := hl
    rw [runSteps_timer t k s s' hc h] at hT
    obtain ⟨L, hL, rfl⟩ := Option.map_eq_some_iff.1 hT
    refine ⟨?_, fun hnone => ?_, fun n hn => ?_⟩
    · simp [← hintervals, hL]
    · simpa [hnone] using hfff L (List.mem_of_getElem? hL)
    · simp [hn]

end Sys2Proof.Machine
end

section
/-! The word store byte by byte (R44): the byte at offset `k` is byte `k` of the big-endian word. -/
namespace Sys2Proof.Machine
open Sys2Proof

theorem Memory.read_writeWord_offset (m : Memory) (a : Nat) (v : Word) {k : Nat} (hk : k < 4) :
    (m.writeWord a v).read (a + k) = (bigEndian v).getD k 0#8 := by
  rw [Memory.read_writeWord, if_pos (by omega), Nat.add_sub_cancel_left]

theorem Memory.read_writeWord_outside (m : Memory) (v : Word) {a x : Nat} (hx : x < a ∨ a + 4 ≤ x) :
    (m.writeWord a v).read x = m.read x := by
  rw [Memory.read_writeWord, if_neg (by omega)]

/-- Settles O34: each byte of the word is read at its own offset, and the store reaches no other. -/
theorem wordStoreIsBigEndian : Obligations.WordStoreIsBigEndian := fun m a v =>
  ⟨m.read_writeWord_offset a v (k := 0) (by decide), m.read_writeWord_offset a v (k := 1) (by decide),
    m.read_writeWord_offset a v (k := 2) (by decide), m.read_writeWord_offset a v (k := 3) (by decide),
    fun _ hx => m.read_writeWord_outside v hx⟩

end Sys2Proof.Machine
end

section
/-! The words that are no command (R65, R66), what the decoder answers to each command's words and to the others, and
that the match and mask columns of the opcode map select the same words (R62). -/
namespace Sys2Proof

/-- The word has an opcode that no row has (R65). -/
abbrev IllegalWord (w : Word) : Prop := opField w = 0x00#8 ∨ 0x08#8 ≤ opField w

/-- The word's must-be-zero field, as its opcode places it, is not zero (R66). -/
abbrev ReservedWord (w : Word) : Prop :=
  ((opField w = 0x01#8 ∨ opField w = 0x03#8) ∧ w.extractLsb' 0 24 ≠ 0#24) ∨
    (opField w = 0x02#8 ∧ w.extractLsb' 8 16 ≠ 0#16) ∨
    ((opField w = 0x04#8 ∨ opField w = 0x06#8 ∨ opField w = 0x07#8) ∧ bField w ≠ 0#8)

@[simp] theorem ifReservedZero_eq_ok_iff {ok : Bool} {i j : Instr} : ifReservedZero ok i = .ok j ↔ ok = true ∧ i = j := by
  cases ok <;> simp [ifReservedZero]

@[simp] theorem ifReservedZero_eq_error_iff {ok : Bool} {i : Instr} {e : CmdError} :
    ifReservedZero ok i = .error e ↔ ok = false ∧ .reservedField = e := by
  cases ok <;> simp [ifReservedZero]

/-- A legal opcode selects a command, and the word is that command unless it is reserved (R64 steps 1 and 2). -/
theorem decode_of_not_illegal {w : Word} (h : ¬ IllegalWord w) :
    ∃ i, decode w = ifReservedZero (decide (¬ ReservedWord w)) i := by
  rcases op_cases w with ho | ho | ho | ho | ho | ho | ho | ho
  · exact ⟨.ckinit, (decode_ckinit_row ho).trans (by simp [ho, low_bits_eq_zero_iff, Bool.beq_eq_decide_eq])⟩
  · exact ⟨.ckbyte (bField w), (decode_ckbyte_row ho).trans (by simp [ho, ← aField_eq_zero_iff, Bool.beq_eq_decide_eq])⟩
  · exact ⟨.ckrd, (decode_ckrd_row ho).trans (by simp [ho, low_bits_eq_zero_iff, Bool.beq_eq_decide_eq])⟩
  · exact ⟨.tdue (aField w), (decode_tdue_row ho).trans (by simp [ho, Bool.beq_eq_decide_eq])⟩
  · exact ⟨.bufwr (aField w) (bField w), (decode_bufwr_row ho).trans (by simp [ho, ifReservedZero])⟩
  · exact ⟨.bufrd (aField w), (decode_bufrd_row ho).trans (by simp [ho, Bool.beq_eq_decide_eq])⟩
  · exact ⟨.frame (aField w), (decode_frame_row ho).trans (by simp [ho, Bool.beq_eq_decide_eq])⟩
  · exact absurd ho h

theorem ReservedWord.not_illegal {w : Word} (h : ReservedWord w) : ¬ IllegalWord w := by
  rcases h with ⟨ho | ho, -⟩ | ⟨ho, -⟩ | ⟨ho | ho | ho, -⟩ <;> rw [IllegalWord, ho] <;> decide

theorem decode_eq_illegalOpcode_iff {w : Word} : decode w = .error .illegalOpcode ↔ IllegalWord w := by
  refine ⟨fun h => ?_, decode_no_row⟩
  by_contra hl
  obtain ⟨i, hi⟩ := decode_of_not_illegal hl
  simp [hi] at h

theorem decode_eq_reservedField_iff {w : Word} : decode w = .error .reservedField ↔ ReservedWord w := by
  by_cases hl : IllegalWord w
  · exact iff_of_false (by simp [decode_no_row hl]) fun hr => hr.not_illegal hl
  · obtain ⟨i, hi⟩ := decode_of_not_illegal hl
    rw [hi, ifReservedZero_eq_error_iff, decide_eq_false_iff_not, not_not, and_iff_left rfl]

/-- A word that is neither illegal nor reserved is a command. -/
theorem decode_of_legal {w : Word} (hl : ¬ IllegalWord w) (hr : ¬ ReservedWord w) : ∃ i, decode w = .ok i := by
  obtain ⟨i, hi⟩ := decode_of_not_illegal hl
  exact ⟨i, hi.trans (by simp [ifReservedZero, hr])⟩

/-- A word that decodes is its command's encoding: its fields are the row's opcode, the operands, and zero. -/
theorem encode_of_decode {w : Word} {i : Instr} (h : decode w = .ok i) : encode i = w := by
  refine Eq.trans ?_ (commandWord_fields w)
  obtain ⟨ho, ha, hb, rfl⟩ | ⟨ho, ha, rfl⟩ | ⟨ho, ha, hb, rfl⟩ | ⟨ho, hb, rfl⟩ | ⟨ho, rfl⟩ | ⟨ho, hb, rfl⟩ | ⟨ho, hb, rfl⟩ :=
    decode_ok_cases h
  · rw [encode, ho, ha, hb]
  · rw [encode, ho, ha]
  · rw [encode, ho, ha, hb]
  · rw [encode, ho, hb]
  · rw [encode, ho]
  · rw [encode, ho, hb]
  · rw [encode, ho, hb]

/-- The operands read from a word fit their fields. -/
theorem wellFormed_of_decode {w : Word} {i : Instr} (h : decode w = .ok i) : i.WellFormed := by
  have hA : fitsFieldA (aField w) = true := (fitsFieldA_iff _).2 (aField_lt w)
  obtain ⟨-, -, -, rfl⟩ | ⟨-, -, rfl⟩ | ⟨-, -, -, rfl⟩ | ⟨-, -, rfl⟩ | ⟨-, rfl⟩ | ⟨-, -, rfl⟩ | ⟨-, -, rfl⟩ :=
    decode_ok_cases h
  · rfl
  · rfl
  · rfl
  · exact hA
  · exact hA
  · exact hA
  · exact hA

/-! The words of each command, by their fields (R62, R66). -/

theorem decode_eq_ckinit_iff {w : Word} : decode w = .ok .ckinit ↔ opField w = 0x01#8 ∧ aField w = 0 ∧ bField w = 0#8 :=
  ⟨fun h => by simpa using decode_ok_cases h, fun ⟨ho, ha, hb⟩ => by simp [decode_ckinit_row ho, ha, hb]⟩

theorem decode_eq_ckbyte_iff {w : Word} : decode w = .ok (.ckbyte (bField w)) ↔ opField w = 0x02#8 ∧ aField w = 0 :=
  ⟨fun h => by simpa using decode_ok_cases h, fun ⟨ho, ha⟩ => by simp [decode_ckbyte_row ho, ha]⟩

theorem decode_eq_ckrd_iff {w : Word} : decode w = .ok .ckrd ↔ opField w = 0x03#8 ∧ aField w = 0 ∧ bField w = 0#8 :=
  ⟨fun h => by simpa using decode_ok_cases h, fun ⟨ho, ha, hb⟩ => by simp [decode_ckrd_row ho, ha, hb]⟩

theorem decode_eq_tdue_iff {w : Word} : decode w = .ok (.tdue (aField w)) ↔ opField w = 0x04#8 ∧ bField w = 0#8 :=
  ⟨fun h => by simpa using decode_ok_cases h, fun ⟨ho, hb⟩ => by simp [decode_tdue_row ho, hb]⟩

theorem decode_eq_bufwr_iff {w : Word} : decode w = .ok (.bufwr (aField w) (bField w)) ↔ opField w = 0x05#8 :=
  ⟨fun h => by simpa using decode_ok_cases h, decode_bufwr_row⟩

theorem decode_eq_bufrd_iff {w : Word} : decode w = .ok (.bufrd (aField w)) ↔ opField w = 0x06#8 ∧ bField w = 0#8 :=
  ⟨fun h => by simpa using decode_ok_cases h, fun ⟨ho, hb⟩ => by simp [decode_bufrd_row ho, hb]⟩

theorem decode_eq_frame_iff {w : Word} : decode w = .ok (.frame (aField w)) ↔ opField w = 0x07#8 ∧ bField w = 0#8 :=
  ⟨fun h => by simpa using decode_ok_cases h, fun ⟨ho, hb⟩ => by simp [decode_frame_row ho, hb]⟩

/-! A mask acts on the three fields of a word one by one. -/

theorem commandWord_and_commandWord (op om : BitVec 8) (a am : Nat) (b bm : Byte) :
    commandWord op a b &&& commandWord om am bm = commandWord (op &&& om) (a &&& am) (b &&& bm) := by
  apply BitVec.eq_of_getLsbD_eq
  intro i _
  simp only [BitVec.getLsbD_and, getLsbD_commandWord, BitVec.ofNat_and]
  split_ifs <;> rfl

theorem commandWord_inj {op op' : BitVec 8} {a a' : Nat} {b b' : Byte} (ha : a < 65536) (ha' : a' < 65536) :
    commandWord op a b = commandWord op' a' b' ↔ op = op' ∧ a = a' ∧ b = b' := by
  refine ⟨fun h => ⟨?_, ?_, ?_⟩, fun ⟨ho, ha, hb⟩ => by rw [ho, ha, hb]⟩
  · simpa using congrArg opField h
  · simpa [aField_commandWord, ha, ha'] using congrArg aField h
  · simpa using congrArg bField h

/-- A word under a mask, compared with match bits: each field under its part of the mask has its part of the match. -/
theorem and_commandWord_eq_iff (w : Word) (om op : BitVec 8) (am a : Nat) (bm b : Byte) (ha : a < 65536) :
    w &&& commandWord om am bm = commandWord op a b ↔ opField w &&& om = op ∧ aField w &&& am = a ∧ bField w &&& bm = b := by
  rw [← commandWord_inj (Nat.and_le_left.trans_lt (aField_lt w)) ha, ← commandWord_and_commandWord, commandWord_fields]

@[simp] theorem byte_and_allOnes (b : Byte) : b &&& 255#8 = b := BitVec.and_allOnes

@[simp] theorem aField_and_allOnes (w : Word) : aField w &&& 65535 = aField w :=
  Nat.and_two_pow_sub_one_of_lt_two_pow (n := 16) (aField_lt w)

theorem and_maskAll_eq_iff (w : Word) (op : BitVec 8) :
    w &&& 0xFFFFFFFF#32 = commandWord op 0 0#8 ↔ opField w = op ∧ aField w = 0 ∧ bField w = 0#8 :=
  (and_commandWord_eq_iff w (.allOnes 8) op 65535 0 (.allOnes 8) 0#8 (by decide)).trans (by simp)

theorem and_maskOpA_eq_iff (w : Word) (op : BitVec 8) :
    w &&& 0xFFFFFF00#32 = commandWord op 0 0#8 ↔ opField w = op ∧ aField w = 0 :=
  (and_commandWord_eq_iff w (.allOnes 8) op 65535 0 0#8 0#8 (by decide)).trans (by simp)

theorem and_maskOpB_eq_iff (w : Word) (op : BitVec 8) :
    w &&& 0xFF0000FF#32 = commandWord op 0 0#8 ↔ opField w = op ∧ bField w = 0#8 :=
  (and_commandWord_eq_iff w (.allOnes 8) op 0 0 (.allOnes 8) 0#8 (by decide)).trans (by simp)

theorem and_maskOp_eq_iff (w : Word) (op : BitVec 8) :
    w &&& 0xFF000000#32 = commandWord op 0 0#8 ↔ opField w = op :=
  (and_commandWord_eq_iff w (.allOnes 8) op 0 0 0#8 0#8 (by decide)).trans (by simp)

/-- Settles O7: a row's match under its mask and the row's decoding ask the same of the word's fields. -/
theorem matchAndMaskSelectTheCommand : Obligations.MatchAndMaskSelectTheCommand := fun w =>
  ⟨(and_maskAll_eq_iff w 0x01#8).trans decode_eq_ckinit_iff.symm,
    (and_maskOpA_eq_iff w 0x02#8).trans decode_eq_ckbyte_iff.symm,
    (and_maskAll_eq_iff w 0x03#8).trans decode_eq_ckrd_iff.symm,
    (and_maskOpB_eq_iff w 0x04#8).trans decode_eq_tdue_iff.symm,
    (and_maskOp_eq_iff w 0x05#8).trans decode_eq_bufwr_iff.symm,
    (and_maskOpB_eq_iff w 0x06#8).trans decode_eq_bufrd_iff.symm,
    (and_maskOpB_eq_iff w 0x07#8).trans decode_eq_frame_iff.symm⟩

end Sys2Proof
end

section
/-! The status of every word (R64, R182, R183), and that an error writes nothing but the response. -/
namespace Sys2Proof.Machine
open Sys2Proof

/-- Settles O5: the opcodes without a row, their response, and the three kinds of words. -/
theorem illegalOpcodesRaiseStatusOne : Obligations.IllegalOpcodesRaiseStatusOne := by
  refine ⟨fun _ => decode_eq_illegalOpcode_iff, fun _ s hw => runWord_error (decode_no_row hw) s,
    decode_no_row (by decide), decode_no_row (by decide), fun w => ?_⟩
  by_cases hl : IllegalWord w
  · exact .inr (.inl (decode_no_row hl))
  · by_cases hr : ReservedWord w
    · exact .inr (.inr (decode_eq_reservedField_iff.2 hr))
    · obtain ⟨i, hi⟩ := decode_of_legal hl hr
      exact .inl ⟨i, wellFormed_of_decode hi, encode_of_decode hi, hi⟩

/-- Settles O6: the reserved words are those the decoder rejects by name, and the error only answers. -/
theorem reservedWordsRaiseStatusTwo : Obligations.ReservedWordsRaiseStatusTwo :=
  ⟨fun _ => decode_eq_reservedField_iff, fun _ => decode_bufwr_row, fun _ s hw => runWord_error hw s⟩

/-- The status a command answers: that of its range error (R64 step 3, R182), or 0. -/
def rangeStatus (s : State) : Instr → BitVec 4
  | .tdue t => if s.timers.length ≤ t then 3#4 else 0#4
  | .bufwr a _ => if s.params.maxLen + 4 ≤ a then 4#4 else 0#4
  | .bufrd a => if s.params.maxLen + 4 ≤ a then 4#4 else 0#4
  | .frame n => if s.params.maxLen < n then 5#4 else 0#4
  | _ => 0#4

theorem CommandEffect.rspStatus_eq {i : Instr} {s s' : State} (h : CommandEffect s i s') :
    s'.rspStatus = rangeStatus s i := by
  cases h with
  | ckinit => rfl
  | ckbyte b => rfl
  | ckrd => rfl
  | tdueBadTimer ht => exact (if_pos (List.getElem?_eq_none_iff.1 ht)).symm
  | tdueNotDue ht hd => exact (if_neg (List.getElem?_eq_some_iff.1 ht).1.not_ge).symm
  | tdueDue ht hd => exact (if_neg (List.getElem?_eq_some_iff.1 ht).1.not_ge).symm
  | bufwr b ha => exact (if_neg ha.not_ge).symm
  | bufwrBadAddress b ha => exact (if_pos ha).symm
  | bufrd ha => exact (if_neg ha.not_ge).symm
  | bufrdBadAddress ha => exact (if_pos ha).symm
  | frame hn => exact (if_neg hn.not_gt).symm
  | frameBadLength hn => exact (if_pos hn).symm

/-- A command that ends with an error writes its response and nothing else (R181). -/
theorem CommandEffect.eq_answer_of_error {i : Instr} {s s' : State} (h : CommandEffect s i s') (he : s'.rspStatus ≠ 0#4) :
    s' = s.answer s'.rspStatus 0#32 := by
  cases h with
  | tdueBadTimer ht => rfl
  | bufwrBadAddress b ha => rfl
  | bufrdBadAddress ha => rfl
  | frameBadLength hn => rfl
  | _ => exact absurd rfl he

/-- The status of a word's response: of the decoding error, or of the command. -/
def wordStatus (s : State) (w : Word) : BitVec 4 :=
  match decode w with
  | .error e => errorCode e
  | .ok i => rangeStatus s i

theorem wordStatus_error {w : Word} {e : CmdError} (h : decode w = .error e) (s : State) : wordStatus s w = errorCode e := by
  rw [wordStatus, h]

theorem wordStatus_ok {w : Word} {i : Instr} (h : decode w = .ok i) (s : State) : wordStatus s w = rangeStatus s i := by
  rw [wordStatus, h]

/-- Every word is answered with its status; an error writes nothing but the response, and without one a command ran. -/
theorem exists_runWord (w : Word) (s : State) : ∃ t, runWord w s = .next t ∧ t.rspStatus = wordStatus s w ∧
    (t.rspStatus ≠ 0#4 → t = s.answer t.rspStatus 0#32) ∧
    (t.rspStatus = 0#4 → ∃ i, decode w = .ok i ∧ exec i s = .next t) := by
  obtain ⟨e, hw, hr⟩ | ⟨i, hw, hr⟩ := runWord_cases w s
  · exact ⟨_, hr, (wordStatus_error hw s).symm, fun _ => rfl, fun h => absurd h (errorCode_range e).1⟩
  · obtain ⟨t, ht⟩ := exists_commandEffect i s
    exact ⟨t, hr.trans ht.exec_eq, ht.rspStatus_eq.trans (wordStatus_ok hw s).symm, ht.eq_answer_of_error,
      fun _ => ⟨i, hw, ht.exec_eq⟩⟩

/-- The checks in the order of R64: opcode, reserved field, then the operand's range. -/
theorem wordStatus_eq (s : State) (w : Word) : wordStatus s w =
    if IllegalWord w then 1#4
    else if ReservedWord w then 2#4
    else if opField w = 0x04#8 ∧ s.timers.length ≤ aField w then 3#4
    else if (opField w = 0x05#8 ∨ opField w = 0x06#8) ∧ s.params.maxLen + 4 ≤ aField w then 4#4
    else if opField w = 0x07#8 ∧ s.params.maxLen < aField w then 5#4
    else 0#4 := by
  by_cases hl : IllegalWord w
  · rw [if_pos hl, wordStatus_error (decode_no_row hl), errorCode]
  by_cases hr : ReservedWord w
  · rw [if_neg hl, if_pos hr, wordStatus_error (decode_eq_reservedField_iff.2 hr), errorCode]
  obtain ⟨i, hi⟩ := decode_of_legal hl hr
  rw [if_neg hl, if_neg hr, wordStatus_ok hi]
  obtain ⟨ho, -, -, rfl⟩ | ⟨ho, -, rfl⟩ | ⟨ho, -, -, rfl⟩ | ⟨ho, -, rfl⟩ | ⟨ho, rfl⟩ | ⟨ho, -, rfl⟩ | ⟨ho, -, rfl⟩ :=
    decode_ok_cases hi <;> simp [ho, rangeStatus]

/-- Settles O2: the step is the word's outcome, and the status is that of the first check that fails. -/
theorem statusOfEveryWord : Obligations.StatusOfEveryWord := by
  intro s w now rest hp
  obtain ⟨t, ht, hstatus, herror, hok⟩ := exists_runWord w (s.take now rest)
  refine ⟨t, (step_command hp).trans ht, ?_, herror, hok⟩
  rw [hstatus, wordStatus_eq]
  simp only [ReservedWord, ite_or]
  rfl

end Sys2Proof.Machine
end

section
/-! Encoded commands decode to themselves (R60 to R62), and a word in numbers is the sum of its fields (R68). -/
namespace Sys2Proof

/-- The decoder reads the fields that the encoding put in the word. -/
theorem decode_encode {i : Instr} (h : i.WellFormed) : decode (encode i) = .ok i := by
  have hA : ∀ {op : BitVec 8} {a : Nat} {b : Byte}, fitsFieldA a = true → aField (commandWord op a b) = a :=
    fun ha => aField_commandWord _ _ _ ((fitsFieldA_iff _).1 ha)
  cases i with
  | ckinit => rfl
  | ckbyte b => simp [encode, decode_ckbyte_row, hA (a := 0) rfl]
  | ckrd => rfl
  | tdue t => simp [encode, decode_tdue_row, hA (a := t) h]
  | bufwr a b => simp [encode, decode_bufwr_row, hA (a := a) h]
  | bufrd a => simp [encode, decode_bufrd_row, hA (a := a) h]
  | frame n => simp [encode, decode_frame_row, hA (a := n) h]

theorem toNat_commandWord (op : BitVec 8) {a : Nat} (b : Byte) (ha : a < 65536) :
    (commandWord op a b).toNat = op.toNat * 0x1000000 + a * 0x100 + b.toNat := by
  have hop : op.toNat < 2 ^ 8 := op.isLt
  have hb : b.toNat < 2 ^ 8 := b.isLt
  have hlow : a <<< 8 ||| b.toNat = a * 0x100 + b.toNat := by
    rw [← Nat.shiftLeft_add_eq_or_of_lt hb, Nat.shiftLeft_eq]
  have hword : op.toNat <<< 24 ||| (a * 0x100 + b.toNat) = op.toNat * 0x1000000 + (a * 0x100 + b.toNat) := by
    rw [← Nat.shiftLeft_add_eq_or_of_lt (by omega), Nat.shiftLeft_eq]
  have hop' : op.toNat <<< 24 < 2 ^ 32 := by rw [Nat.shiftLeft_eq]; omega
  have ha' : a <<< 8 < 2 ^ 32 := by rw [Nat.shiftLeft_eq]; omega
  simp only [commandWord, BitVec.toNat_or, BitVec.toNat_shiftLeft, BitVec.toNat_setWidth, BitVec.toNat_ofNat,
    Nat.mod_eq_of_lt (show op.toNat < 2 ^ 32 by omega), Nat.mod_eq_of_lt (show b.toNat < 2 ^ 32 by omega),
    Nat.mod_eq_of_lt (show a < 2 ^ 16 from ha), Nat.mod_eq_of_lt (show a < 2 ^ 32 by omega),
    Nat.mod_eq_of_lt hop', Nat.mod_eq_of_lt ha', Nat.or_assoc]
  rw [hlow, hword, Nat.add_assoc]

end Sys2Proof
end

section
/-! The step function of the checksum (R81): its rounds, and that a byte moves the accumulator down a byte. -/
namespace Sys2Proof.Machine
open Sys2Proof

theorem crcBits_eq_iterate (poly : Word) (order : BitOrder) (k : Nat) :
    ∀ acc, crcBits poly order k acc = (crcBit poly order)^[k] acc := by
  induction k with
  | zero => exact fun _ => rfl
  | succ k ih => exact fun acc => ih (crcBit poly order acc)

/-- Settles O15: R81's loop body is `crcBit`, and the step is its rounds on the accumulator that met the byte. -/
theorem defaultCrcStepIsEightRounds : Obligations.DefaultCrcStepIsEightRounds :=
  ⟨fun _ _ => crcBits_eq_iterate _ _ _ _, by decide, by decide, by decide, by decide, by decide⟩

/-- No round on a zero bit meets the polynomial: it is a shift. -/
theorem crcBits_of_low_zero (poly : Word) (k : Nat) : ∀ acc : Word, (∀ j < k, acc.getLsbD j = false) →
    crcBits poly .lsbFirst k acc = acc >>> k := by
  induction k with
  | zero => simp [crcBits]
  | succ k ih =>
    intro acc h
    have hbit : crcBit poly .lsbFirst acc = acc >>> 1 := if_neg (by rw [h 0 k.succ_pos]; decide)
    rw [crcBits, hbit, ih, ← BitVec.shiftRight_add, Nat.add_comm]
    intro j hj
    rw [BitVec.getLsbD_ushiftRight]
    exact h (1 + j) (by omega)

theorem xor_setWidth_eq_high_xor_low (acc : Word) (b : Byte) :
    acc ^^^ b.setWidth 32 = (acc >>> 8) <<< 8 ^^^ (acc.extractLsb' 0 8 ^^^ b).setWidth 32 := by
  apply BitVec.eq_of_getLsbD_eq
  intro j hj
  by_cases h : j < 8
  · simp [h, hj]
  · have hb : b.getLsbD j = false := BitVec.getLsbD_of_ge _ _ (by omega)
    simp [h, hj, hb, show 8 + (j - 8) = j by omega]

/-- One byte, least significant bit first: the accumulator moves down a byte, and its low byte meets the byte folded in. -/
theorem crcStep_lsbFirst {alg : CrcAlg} {poly : Word} (h : alg.step = .bitSerial poly .lsbFirst) (acc : Word) (b : Byte) :
    crcStep alg acc b = acc >>> 8 ^^^ crcStep alg 0#32 (acc.extractLsb' 0 8 ^^^ b) := by
  have hlow : ∀ j < 8, ((acc >>> 8) <<< 8).getLsbD j = false := fun j hj => by simp [hj]
  have hhigh : ((acc >>> 8) <<< 8) >>> 8 = acc >>> 8 := by
    apply BitVec.eq_of_getLsbD_eq
    intro j _
    by_cases hj : 8 + j < 32
    · simp [hj]
    · simp [hj, BitVec.getLsbD_of_ge acc (8 + j) (by omega)]
  rw [crcStep_bitSerial h, crcStep_bitSerial h]
  simp only [crcMeet, BitVec.zero_xor]
  rw [xor_setWidth_eq_high_xor_low, crcBits_xor, crcBits_of_low_zero poly 8 _ hlow, hhigh]

/-- The word that is `v` xor itself moved down a byte. -/
def xorShifts (v : Word) : Word := v ^^^ v >>> 8 ^^^ v >>> 16 ^^^ v >>> 24

theorem eq_xorShifts {acc v : Word} (h : acc = acc >>> 8 ^^^ v) : acc = xorShifts v := by
  have hv : v = acc ^^^ acc >>> 8 := by
    conv_rhs => lhs; rw [h]
    rw [BitVec.xor_comm (acc >>> 8) v, BitVec.xor_assoc, BitVec.xor_self, BitVec.xor_zero]
  rw [hv, xorShifts]
  apply BitVec.eq_of_getLsbD_eq
  intro j _
  simp [← Nat.add_assoc]

/-- An accumulator that a zero byte leaves is fixed by the table entry of its low byte; this says that its low byte agrees
with that entry only where it is 0. It is checked for each of the 256 bytes. -/
theorem eq_zero_of_low_byte_xorShifts {b : Byte} (h : (xorShifts (crcStep .isoHdlc 0#32 b)).extractLsb' 0 8 = b) :
    b = 0#8 := by
  revert b
  decide

/-- In the default algorithm a zero byte leaves no accumulator but 0 (R85). -/
theorem crcStep_isoHdlc_zero_byte_iff (acc : Word) : crcStep .isoHdlc acc 0x00#8 = acc ↔ acc = 0#32 := by
  refine ⟨fun h => ?_, fun h => h ▸ by decide⟩
  have hacc := eq_xorShifts (h.symm.trans (crcStep_lsbFirst rfl acc 0#8))
  rw [BitVec.xor_zero] at hacc
  have hlow : acc.extractLsb' 0 8 = 0#8 := eq_zero_of_low_byte_xorShifts (congrArg (BitVec.extractLsb' 0 8) hacc).symm
  rw [hlow] at hacc
  exact hacc.trans (by decide)

/-- Settles O13: the command is one `crc_step`, and in the default algorithm only 0 is left by a zero byte. -/
theorem ckbyteFoldsOneByte : Obligations.CkbyteFoldsOneByte := by
  refine ⟨fun s b => execCkbyte_eq b s, fun b => ?_, fun w hw => ?_, crcStep_isoHdlc_zero_byte_iff, by decide⟩
  · exact toNat_commandWord 0x02#8 b (by decide)
  · rw [decode_ckbyte_row hw, ifReservedZero]
    simp only [beq_iff_eq, aField_eq_zero_iff]
    rfl

end Sys2Proof.Machine
end

section
/-! The run of a sequence of presented commands: it runs them one after the other (R50). -/
namespace Sys2Proof.Machine
open Sys2Proof

/-- The commands, each at its tick value, take `s` to `t` one after the other. -/
inductive CommandRun : State → List (Instr × Word) → State → Prop where
  | nil (s : State) : CommandRun s [] s
  | cons {s u t : State} {i : Instr} {now : Word} {rest : List HostInput} {cs : List (Instr × Word)}
      (head : CommandEffect (s.take now rest) i u) (tail : CommandRun u cs t) : CommandRun s ((i, now) :: cs) t

/-- The machine runs the well-formed commands presented to it. -/
theorem exists_commandRun (cs : List (Instr × Word)) : ∀ s : State, s.pending = presentAll cs →
    (∀ c ∈ cs, c.1.WellFormed) → ∃ t, runSteps cs.length s = .next t ∧ CommandRun s cs t := by
  induction cs with
  | nil => exact fun s _ _ => ⟨s, rfl, .nil s⟩
  | cons c cs ih =>
    obtain ⟨i, now⟩ := c
    intro s hp hwf
    obtain ⟨hi, hcs⟩ := List.forall_mem_cons.1 hwf
    obtain ⟨u, hu⟩ := exists_commandEffect i (s.take now (presentAll cs))
    have hs : step s = .next u := (step_presented (decode_encode hi) hp).trans hu.exec_eq
    obtain ⟨t, ht, hr⟩ := ih u hu.pending_eq hcs
    exact ⟨t, (runSteps_succ hs).trans ht, .cons hu hr⟩

/-- A run of two sequences is a run of the one and then of the other. -/
theorem CommandRun.of_append {ds : List (Instr × Word)} {t : State} : ∀ {cs : List (Instr × Word)} {s : State},
    CommandRun s (cs ++ ds) t → ∃ u, CommandRun s cs u ∧ CommandRun u ds t
  | [], s, h => ⟨s, .nil s, h⟩
  | _ :: _, _, .cons head tail =>
    let ⟨u, hc, hd⟩ := of_append tail
    ⟨u, .cons head hc, hd⟩

theorem CommandRun.of_singleton {s t : State} {i : Instr} {now : Word} (h : CommandRun s [(i, now)] t) :
    ∃ rest, CommandEffect (s.take now rest) i t := by
  cases h with
  | cons head tail => cases tail; exact ⟨_, head⟩

theorem CommandRun.params_eq {s t : State} {cs : List (Instr × Word)} (h : CommandRun s cs t) : t.params = s.params := by
  induction h with
  | nil s => rfl
  | cons head tail ih => exact ih.trans head.params_eq

/-- A command that does not restart `ACC` folds in its byte, if it has one (R85, R217). -/
theorem CommandEffect.acc_eq {i : Instr} {s s' : State} (h : CommandEffect s i s') (hi : restartsAcc i = false)
    (now : Word) : s'.acc = crcFold s.params.crc s.acc (foldedBytes [(i, now)]) := by
  cases h with
  | ckinit => cases hi
  | frame hn => cases hi
  | frameBadLength hn => cases hi
  | _ => rfl

theorem foldedBytes_cons (c : Instr × Word) (cs : List (Instr × Word)) :
    foldedBytes (c :: cs) = foldedBytes [c] ++ foldedBytes cs := by
  obtain ⟨i, now⟩ := c
  cases i <;> rfl

@[simp] theorem foldedBytes_ckbytes (P : List Byte) (now : Word) : foldedBytes (allAt now (P.map .ckbyte)) = P := by
  induction P with
  | nil => rfl
  | cons b P ih => exact congrArg (b :: ·) ih

/-- Commands that do not restart `ACC` fold in the bytes of their CKBYTE commands, in order. -/
theorem CommandRun.acc_eq {s t : State} {cs : List (Instr × Word)} (h : CommandRun s cs t)
    (hcs : ∀ c ∈ cs, restartsAcc c.1 = false) : t.acc = crcFold s.params.crc s.acc (foldedBytes cs) := by
  induction h with
  | nil s => rfl
  | @cons s u t i now rest cs head tail ih =>
    obtain ⟨hi, hcs⟩ := List.forall_mem_cons.1 hcs
    rw [ih hcs, head.params_eq, head.acc_eq hi now, foldedBytes_cons (i, now) cs, crcFold_append]
    rfl

/-- The stream law for a run of commands (R87). -/
theorem CommandRun.acc_eq_crcAcc {s t : State} {cs : List (Instr × Word)} {now : Word}
    (h : CommandRun s ((.ckinit, now) :: cs) t) (hcs : ∀ c ∈ cs, restartsAcc c.1 = false) :
    t.acc = crcAcc s.params.crc (foldedBytes cs) := by
  cases h with
  | cons head tail =>
    cases head
    exact tail.acc_eq hcs

/-- Settles O19: the stream law for the run the machine makes of the commands. -/
theorem accIsTheChecksumOfTheBytesFolded : Obligations.AccIsTheChecksumOfTheBytesFolded := by
  intro s cs now hcs
  obtain ⟨t, ht, hr⟩ := exists_commandRun ((.ckinit, now) :: cs) _ (s.presented_pending _)
    (List.forall_mem_cons.2 ⟨rfl, fun c hc => (hcs c hc).1⟩)
  have hacc : t.acc = crcAcc s.params.crc (foldedBytes cs) := hr.acc_eq_crcAcc fun c hc => (hcs c hc).2
  refine ⟨t, ht, hacc, ?_⟩
  rw [crc, ← hacc, ← show t.params = s.params from hr.params_eq]
  exact execCkrd_eq t

end Sys2Proof.Machine
end

section
/-! The two host shorthands CKSUM and SEND (R69) and their agreement (R88). -/
namespace Sys2Proof.Machine
open Sys2Proof

@[simp] theorem length_allAt (now : Word) (is : List Instr) : (allAt now is).length = is.length := List.length_map _

theorem wellFormed_of_mem_allAt {now : Word} {is : List Instr} (h : ∀ i ∈ is, i.WellFormed) :
    ∀ c ∈ allAt now is, c.1.WellFormed :=
  List.forall_mem_map.2 h

theorem wellFormed_of_mem_cksum {P : List Byte} : ∀ i ∈ cksum P, i.WellFormed := by
  simp only [cksum, List.mem_cons, List.mem_append, List.mem_map, List.not_mem_nil, or_false]
  rintro i (rfl | ⟨b, -, rfl⟩ | rfl) <;> rfl

theorem wellFormed_of_mem_fillFrom (P : List Byte) : ∀ a, a + P.length ≤ 65536 → ∀ i ∈ fillFrom a P, i.WellFormed := by
  induction P with
  | nil => simp [fillFrom]
  | cons b P ih =>
    intro a ha
    rw [List.length_cons] at ha
    exact List.forall_mem_cons.2 ⟨(fitsFieldA_iff a).2 (by omega), ih (a + 1) (by omega)⟩

theorem wellFormed_of_mem_send {P : List Byte} (h : P.length ≤ 65531) : ∀ i ∈ send P, i.WellFormed := by
  refine List.forall_mem_append.2 ⟨wellFormed_of_mem_fillFrom P prefixLen (by rw [prefixLen]; omega),
    List.forall_mem_singleton.2 ((fitsFieldA_iff _).2 (by omega))⟩

/-- CKSUM answers the checksum of its bytes (R69, R86). -/
theorem CommandRun.cksum_answers {s t : State} {P : List Byte} {now : Word} (h : CommandRun s (allAt now (cksum P)) t) :
    t.rspStatus = 0#4 ∧ t.rspValue = crc s.params.crc P := by
  have hsplit : allAt now (cksum P) = (.ckinit, now) :: allAt now (P.map .ckbyte) ++ [(.ckrd, now)] := by
    simp [allAt, cksum]
  obtain ⟨u, hu, hlast⟩ := CommandRun.of_append (hsplit ▸ h)
  have hacc := hu.acc_eq_crcAcc (by simp [allAt, restartsAcc])
  rw [foldedBytes_ckbytes] at hacc
  obtain ⟨rest, he⟩ := hlast.of_singleton
  cases he
  refine ⟨rfl, ?_⟩
  simp [hu.params_eq, hacc, crc]

/-- BUFWR of each byte of a block inside the buffer writes the block and sends nothing (R69, R121). -/
theorem CommandRun.fillFrom_writes {now : Word} (P : List Byte) : ∀ {s t : State} {a : Nat},
    CommandRun s (allAt now (fillFrom a P)) t → a + P.length ≤ s.params.maxLen + 4 →
      t.buf = s.buf.writeBytes a P ∧ t.tx = s.tx := by
  induction P with
  | nil => rintro s t a ⟨⟩ -; exact ⟨rfl, rfl⟩
  | cons b P ih =>
    rintro s t a (_ | ⟨head, tail⟩) hfit
    rw [List.length_cons] at hfit
    cases head with
    | bufwr _ ha => exact ih tail (by simp only [State.answer_params, State.withBuf_params, State.take_params]; omega)
    | bufwrBadAddress _ ha => rw [State.take_params] at ha; omega

/-- SEND stores the checksum of its bytes at address 0 and sends their frame (R69, R135). -/
theorem CommandRun.send_stores_and_sends {s t : State} {P : List Byte} {now : Word} (h : CommandRun s (allAt now (send P)) t)
    (hP : P.length ≤ s.params.maxLen) : t.rspStatus = 0#4 ∧
      t.buf = (s.buf.writeBytes prefixLen P).writeWord 0 (crc s.params.crc P) ∧ t.tx = s.tx ++ wireFrame s.params P := by
  have hsplit : allAt now (send P) = allAt now (fillFrom prefixLen P) ++ [(.frame P.length, now)] :=
    List.map_append
  obtain ⟨u, hu, hlast⟩ := CommandRun.of_append (hsplit ▸ h)
  obtain ⟨hbuf, htx⟩ := hu.fillFrom_writes P (by rw [prefixLen]; omega)
  have hpayload : u.payload P.length = P := by rw [State.payload, hbuf, Memory.readBytes_writeBytes]
  obtain ⟨rest, he⟩ := hlast.of_singleton
  cases he with
  | frame hn =>
    refine ⟨rfl, ?_, ?_⟩
    · simp [State.checksummedBuf, hpayload, hbuf, hu.params_eq]
    · simp [hpayload, htx, hu.params_eq]
  | frameBadLength hn => rw [State.take_params, hu.params_eq] at hn; omega

/-- Settles O20: CKSUM answers the checksum that SEND stores and sends. -/
theorem cksumAgreesWithSend : Obligations.CksumAgreesWithSend := by
  intro s s' P now now' hparams hok hP
  obtain ⟨-, -, hmax, -, -⟩ := hok
  obtain ⟨t, ht, htr⟩ := exists_commandRun (allAt now (cksum P)) _ (s.presented_pending _)
    (wellFormed_of_mem_allAt wellFormed_of_mem_cksum)
  obtain ⟨u, hu, hur⟩ := exists_commandRun (allAt now' (send P)) _ (s'.presented_pending _)
    (wellFormed_of_mem_allAt (wellFormed_of_mem_send (hP.trans hmax)))
  obtain ⟨htstatus, hC⟩ := htr.cksum_answers
  obtain ⟨hustatus, hbuf, htx⟩ := hur.send_stores_and_sends (by rwa [State.presented_params, hparams])
  rw [length_allAt] at ht hu
  rw [State.presented_params] at hC
  rw [State.presented_params, hparams, ← hC] at hbuf
  rw [State.presented_params, hparams, wireFrame, ← hC] at htx
  have hread : ∀ k < 4, u.buf.read k = (bigEndian t.rspValue).getD k 0#8 := fun k hk => by
    rw [hbuf, ← Memory.read_writeWord_offset _ 0 _ hk, Nat.zero_add]
  exact ⟨t, u, ht, hu, htstatus, hustatus, hread 0 (by decide), hread 1 (by decide), hread 2 (by decide),
    hread 3 (by decide), htx⟩

end Sys2Proof.Machine
end

section
/-! A TDUE as one state update (R101): the record it checks, and the response it gives, are functions of that record and
the tick value. What this gives directly: the branches of R101, the boundary table (R109) and the independence of the
timers (R111). -/
namespace Sys2Proof.Machine
open Sys2Proof

/-- The record after a check at tick value `now`: rearmed if due. -/
def Timer.checked (T : Timer) (now : Word) : Timer := if T.isDue now then T.rearm now else T

/-- The status of a check, by the record it finds. -/
def checkStatus : Option Timer → BitVec 4
  | none => 3#4
  | some _ => 0#4

/-- The response value of a check at tick value `now`, by the record it finds. -/
def checkValue (now : Word) : Option Timer → Word
  | none => 0#32
  | some T => dueValue (T.isDue now)

/-- The state after a check of timer `t`. -/
def State.check (s : State) (t : Nat) : State :=
  (s.withTimers (s.timers.modify t (·.checked s.now))).answer (checkStatus s.timers[t]?) (checkValue s.now s.timers[t]?)

@[simp] theorem State.check_timers (s : State) (t : Nat) :
    (s.check t).timers = s.timers.modify t (·.checked s.now) := rfl

@[simp] theorem State.check_now (s : State) (t : Nat) : (s.check t).now = s.now := rfl

@[simp] theorem State.check_rspStatus (s : State) (t : Nat) : (s.check t).rspStatus = checkStatus s.timers[t]? := rfl

@[simp] theorem State.check_rspValue (s : State) (t : Nat) : (s.check t).rspValue = checkValue s.now s.timers[t]? := rfl

theorem exec_tdue (s : State) (t : Nat) : exec (.tdue t) s = .next (s.check t) := by
  rcases ht : s.timers[t]? with _ | T
  · have hts : s.timers.modify t (·.checked s.now) = s.timers :=
      List.modify_eq_self (List.getElem?_eq_none_iff.1 ht)
    rw [State.check, hts, ht]
    exact execTdue_badTimer ht
  · have hts : s.timers.modify t (·.checked s.now) = s.timers.set t (T.checked s.now) := by
      simp [List.modify_eq_set_getElem?, ht]
    rw [State.check, hts, ht]
    cases hd : T.isDue s.now with
    | true =>
      rw [Timer.checked, if_pos hd, checkStatus, checkValue, hd]
      exact execTdue_due ht hd
    | false =>
      have hself : s.timers.set t T = s.timers := by
        obtain ⟨h, rfl⟩ := List.getElem?_eq_some_iff.1 ht
        exact List.set_getElem_self h
      rw [Timer.checked, if_neg (Bool.eq_false_iff.1 hd), hself, checkStatus, checkValue, hd]
      exact execTdue_notDue ht hd

theorem guarded_iff {next now : Word} :
    guarded next now = true ↔ next < 0x80000000#32 ∧ 0x80000000#32 ≤ now := by
  rw [guarded, Bool.and_eq_true, decide_eq_true_eq, decide_eq_true_eq, half]

/-- In the guard no timer past its first check is due (R101, R103). -/
theorem Timer.isDue_guarded {T : Timer} {now : Word} (h : T.fff = false)
    (hg : T.next < 0x80000000#32 ∧ 0x80000000#32 ≤ now) : T.isDue now = false := by
  rw [Timer.isDue_later h, guarded_iff.2 hg, Bool.not_true, Bool.false_and]

/-- Outside the guard the unsigned comparison decides (R101). -/
theorem Timer.isDue_unguarded {T : Timer} {now : Word} (h : T.fff = false)
    (hg : ¬ (T.next < 0x80000000#32 ∧ 0x80000000#32 ≤ now)) : T.isDue now = decide (T.next ≤ now) := by
  rw [Timer.isDue_later h, Bool.eq_false_iff.2 (mt guarded_iff.1 hg), Bool.not_false, Bool.true_and]

/-- Settles O21: each branch of R101 is one value of the due test. -/
theorem tdueChecksAndRearms : Obligations.TdueChecksAndRearms := by
  refine ⟨fun s t ht => execTdue_badTimer (List.getElem?_eq_none_iff.2 ht), fun s t T hT => ⟨?_, ?_, ?_, ?_⟩,
    fun t ht => ?_, fun w hw => ?_⟩
  · exact fun hf => execTdue_due hT (Timer.isDue_first hf _)
  · exact fun hf hg => execTdue_notDue hT (Timer.isDue_guarded hf hg)
  · exact fun hf hg hle => execTdue_due hT ((Timer.isDue_unguarded hf hg).trans (decide_eq_true hle))
  · exact fun hf hg hlt => execTdue_notDue hT ((Timer.isDue_unguarded hf hg).trans (decide_eq_false (BitVec.not_le.2 hlt)))
  · exact toNat_commandWord 0x04#8 0#8 (by omega)
  · rw [decode_tdue_row hw, ifReservedZero]
    simp only [beq_iff_eq]
    rfl

/-- Settles O29: checks of different timers update different records, each by its own record and the tick value only. -/
theorem timersAreIndependent : Obligations.TimersAreIndependent := by
  intro s t u htu
  have hu : (s.check t).timers[u]? = s.timers[u]? := List.getElem?_modify_ne _ _ htu
  have ht : (s.check u).timers[t]? = s.timers[t]? := List.getElem?_modify_ne _ _ htu.symm
  refine ⟨⟨_, _, _, _, exec_tdue s t, exec_tdue _ u, exec_tdue s u, exec_tdue _ t, hu, List.modify_modify_ne _ _ _ htu,
    congrArg checkStatus ht.symm, congrArg (checkValue s.now) ht.symm,
    congrArg checkStatus hu.symm, congrArg (checkValue s.now) hu.symm⟩, fun X => ?_⟩
  have hX : (s.timers.set u X)[t]? = s.timers[t]? := List.getElem?_set_ne htu.symm
  refine ⟨_, _, exec_tdue s t, exec_tdue _ t, ?_, congrArg checkStatus hX.symm, congrArg (checkValue s.now) hX.symm⟩
  simp only [State.check_timers, List.set_eq_modify]
  exact List.modify_modify_ne _ _ _ htu.symm

/-- The due test on a row of R109: the due bit, and the deadline the check leaves. -/
def boundaryRowHolds : Word × Word × Bool × Word → Bool
  | (next, now, due, after) =>
    let T : Timer := { next := next, interval := 0x3E8#32, fff := false }
    T.isDue now == due && T.checked now == { T with next := after }

/-- Settles O27: the due test has the rows of the table, and a TDUE answers and leaves what the due test says. -/
theorem boundaryTableOfTheDueTest : Obligations.BoundaryTableOfTheDueTest := by
  intro s t next now after due hrow hT hnow
  have hholds : boundaryRowHolds (next, now, due, after) = true := List.all_eq_true.1 (by decide) _ hrow
  simp only [boundaryRowHolds, Bool.and_eq_true, beq_iff_eq] at hholds
  obtain ⟨hdue, hchecked⟩ := hholds
  refine ⟨_, exec_tdue s t, ?_, ?_, ?_⟩
  · simp [hT, checkStatus]
  · simp [hT, hnow, checkValue, hdue, dueValue]
  · simp [hT, hnow, hchecked]

end Sys2Proof.Machine
end

section
/-! When a timer past its first check is due: in the window of its deadline (R105), which is the same half of the tick
space (R104); so not before an interval of at most `2^31` ends (R107). -/
namespace Sys2Proof.Machine
open Sys2Proof

theorem windowEnd_low {next : Word} (h : next.toNat < 2 ^ 31) : windowEnd next = 2 ^ 31 := if_pos h

theorem windowEnd_high {next : Word} (h : 2 ^ 31 ≤ next.toNat) : windowEnd next = 2 ^ 32 := if_neg h.not_gt

theorem inWindow_low_iff {next now : Word} (h : next.toNat < 2 ^ 31) :
    InWindow next now ↔ next.toNat ≤ now.toNat ∧ now.toNat < 2 ^ 31 := by
  rw [InWindow, windowEnd_low h]

theorem inWindow_high_iff {next now : Word} (h : 2 ^ 31 ≤ next.toNat) :
    InWindow next now ↔ next.toNat ≤ now.toNat ∧ now.toNat < 2 ^ 32 := by
  rw [InWindow, windowEnd_high h]

theorem Timer.isDue_iff_inWindow {T : Timer} (h : T.fff = false) (now : Word) :
    T.isDue now = true ↔ InWindow T.next now := by
  have hnow : now.toNat < 2 ^ 32 := now.isLt
  rw [Timer.isDue_later_iff h]
  rcases lt_or_ge T.next.toNat (2 ^ 31) with hlow | hhigh
  · rw [inWindow_low_iff hlow]; omega
  · rw [inWindow_high_iff hhigh]; omega

/-- The window of a deadline is what lies after it in its own half. -/
theorem inWindow_iff_sameHalf (next now : Word) : InWindow next now ↔
    now.getLsbD 31 = next.getLsbD 31 ∧ next.extractLsb' 0 31 ≤ now.extractLsb' 0 31 := by
  have hnow : now.toNat < 2 ^ 32 := now.isLt
  have hnext : next.toNat < 2 ^ 32 := next.isLt
  have hbit : ∀ x : Word, x.getLsbD 31 = decide (2 ^ 31 ≤ x.toNat) := BitVec.getLsbD_last
  simp only [hbit, decide_eq_decide, BitVec.le_def, BitVec.extractLsb'_toNat, Nat.shiftRight_zero]
  rcases lt_or_ge next.toNat (2 ^ 31) with hlow | hhigh
  · rw [inWindow_low_iff hlow]; omega
  · rw [inWindow_high_iff hhigh]; omega

/-- The response to a check of a timer past its first one (R63, R105). -/
theorem exists_exec_tdue_inWindow {s : State} {t : Nat} {T : Timer} (hT : s.timers[t]? = some T) (hf : T.fff = false) :
    ∃ u, exec (.tdue t) s = .next u ∧ u.rspStatus = 0#4 ∧
      (InWindow T.next s.now → u.rspValue = 1#32) ∧ (¬ InWindow T.next s.now → u.rspValue = 0#32) := by
  refine ⟨_, exec_tdue s t, by simp [hT, checkStatus], fun hw => ?_, fun hw => ?_⟩
  · simp [hT, checkValue, dueValue, (Timer.isDue_iff_inWindow hf _).2 hw]
  · simp [hT, checkValue, dueValue, mt (Timer.isDue_iff_inWindow hf _).1 hw]

/-- Settles O23: the window, read as one half of the tick space. -/
theorem dueExactlyInTheSameHalf : Obligations.DueExactlyInTheSameHalf := by
  intro s t T hT hf
  obtain ⟨u, hu, hstatus, hdue, hnot⟩ := exists_exec_tdue_inWindow hT hf
  refine ⟨u, hu, hstatus, ?_⟩
  split_ifs with h
  · exact hdue ((inWindow_iff_sameHalf _ _).2 h)
  · exact hnot (mt (inWindow_iff_sameHalf _ _).1 h)

/-- The size of a window: 1 tick for the last deadline of a half, `2^31` ticks for the first one. -/
theorem windowSize (next : Word) : 1 ≤ windowEnd next - next.toNat ∧ windowEnd next - next.toNat ≤ 2 ^ 31 ∧
    (windowEnd next - next.toNat = 1 ↔ next = 0x7FFFFFFF#32 ∨ next = 0xFFFFFFFF#32) ∧
    (windowEnd next - next.toNat = 2 ^ 31 ↔ next = 0x00000000#32 ∨ next = 0x80000000#32) := by
  have hnext : next.toNat < 2 ^ 32 := next.isLt
  simp only [← BitVec.toNat_inj, BitVec.toNat_ofNat]
  rcases lt_or_ge next.toNat (2 ^ 31) with hlow | hhigh
  · rw [windowEnd_low hlow]; omega
  · rw [windowEnd_high hhigh]; omega

/-- Settles O24: the due test is the window, whose ends and size are those of the deadline's half. -/
theorem dueExactlyInTheWindow : Obligations.DueExactlyInTheWindow :=
  ⟨fun _ _ _ => exists_exec_tdue_inWindow, fun _ _ => inWindow_low_iff, fun _ _ => inWindow_high_iff, windowSize⟩

/-- A TDUE that answers 1 has rearmed its record (R101). -/
theorem getElem?_of_exec_tdue_due {s u : State} {t : Nat} {T : Timer} (hT : s.timers[t]? = some T)
    (h : exec (.tdue t) s = .next u) (hv : u.rspValue = 1#32) : u.timers[t]? = some (T.rearm s.now) := by
  obtain rfl := Host.Outcome.next.inj ((exec_tdue s t).symm.trans h)
  have hdue : T.isDue s.now = true := by
    by_contra hd
    simp [hT, checkValue, dueValue, hd] at hv
  simp [hT, Timer.checked, hdue]

/-- A record rearmed at `n` is not due before the interval ends: either the deadline is still ahead, or it has wrapped
into the low half and the tick value is left in the high one (R107). -/
theorem Timer.not_isDue_rearm (T : Timer) (n : Word) {d : Nat} (hI : T.interval.toNat ≤ 2 ^ 31) (hd : d < T.interval.toNat) :
    (T.rearm n).isDue (n + BitVec.ofNat 32 d) = false := by
  have hn : n.toNat < 2 ^ 32 := n.isLt
  rw [Bool.eq_false_iff, Ne, Timer.isDue_later_iff rfl]
  simp only [Timer.rearm_next, BitVec.toNat_add, BitVec.toNat_ofNat]
  omega

/-- Settles O25: the record after the fire is the rearmed one, on which the due test is known. -/
theorem noFireBeforeTheIntervalEnds : Obligations.NoFireBeforeTheIntervalEnds := by
  refine ⟨fun s u s' t T d hT hI h _ hv hkept hd hnow => ?_, fun s u s' t T hT hlarge h _ hv hkept hnow => ?_⟩
  · have hu := getElem?_of_exec_tdue_due hT h hv
    exact ⟨hu, execTdue_notDue (hkept.trans hu) (hnow ▸ T.not_isDue_rearm s.now hI hd)⟩
  · have hu := getElem?_of_exec_tdue_due hT h hv
    have hdue : (T.rearm s.now).isDue s'.now = true := by
      rw [hnow, Timer.isDue_later_iff rfl, Timer.rearm_next]
      obtain ⟨hn, hI⟩ | ⟨hn, hI⟩ := hlarge <;> rw [hn, hI] <;> decide
    exact ⟨hu, _, execTdue_due (hkept.trans hu) hdue, rfl, rfl⟩

end Sys2Proof.Machine
end

section
/-! The first check after reset (R106): no input but its own check changes a timer record. -/
namespace Sys2Proof.Machine
open Sys2Proof

theorem step_timer_of_isOtherThanCheckOf {s s' : State} {t : Nat} (h : step s = .next s')
    (hx : ∀ x ∈ s.pending.head?, x.isOtherThanCheckOf t = true) : s'.timers[t]? = s.timers[t]? := by
  cases stepEffect_of_step h with
  | idle hp => rfl
  | reset hp => simp [hp, HostInput.isOtherThanCheckOf] at hx
  | badWord hp hw => rfl
  | @command w now rest i _ hp hw hi =>
    have hit : i ≠ .tdue t := by simpa [hp, HostInput.isOtherThanCheckOf, hw] using hx
    exact hi.timer_eq hit

theorem runSteps_timer_of_isOtherThanCheckOf (t k : Nat) : ∀ s s' : State, runSteps k s = .next s' →
    (∀ x ∈ s.pending.take k, x.isOtherThanCheckOf t = true) → s'.timers[t]? = s.timers[t]? := by
  induction k with
  | zero =>
    intro s s' h _
    obtain rfl := Host.Outcome.next.inj h
    rfl
  | succ k ih =>
    intro s s' h hx
    obtain ⟨u, hu, hr⟩ := runSteps_succ_eq_next h
    have hhead : u.timers[t]? = s.timers[t]? := step_timer_of_isOtherThanCheckOf hu fun x hxs =>
      hx x (List.mem_of_mem_head? (by rwa [List.head?_take, if_neg k.succ_ne_zero]))
    have htail : s'.timers[t]? = u.timers[t]? := ih u s' hr fun x hxs => by
      rw [step_pending hu, ← Nat.add_sub_cancel k 1, ← List.tail_take_eq_take_tail] at hxs
      exact hx x (List.mem_of_mem_tail hxs)
    exact htail.trans hhead

/-- A timer of a launch state has the interval of the build and is before its first check (R212). -/
theorem Launch.exists_timer {s : State} {t : Nat} {I : Word} (h : Launch s) (hI : s.params.intervals[t]? = some I) :
    ∃ T, s.timers[t]? = some T ∧ T.interval = I ∧ T.fff = true := by
  obtain ⟨-, hintervals, hfff, -⟩ := h
  rw [← hintervals, List.getElem?_map] at hI
  obtain ⟨T, hT, rfl⟩ := Option.map_eq_some_iff.1 hI
  exact ⟨T, hT, rfl, hfff T (List.mem_of_getElem? hT)⟩

/-- Settles O22: the run keeps the launch record, on which every check is due. -/
theorem firstCheckAfterResetFires : Obligations.FirstCheckAfterResetFires := by
  intro s s' k t I hl h hx hI now
  obtain ⟨T, hT, rfl, hf⟩ := hl.exists_timer hI
  have hT' : s'.timers[t]? = some T := (runSteps_timer_of_isOtherThanCheckOf t k s s' h hx).trans hT
  exact ⟨execTdue_due (s := { s' with now := now }) hT' (Timer.isDue_first hf now), fun h0 => by simp [h0]⟩

end Sys2Proof.Machine
end

section
/-! The payload buffer (R121, R122): writing back the byte a buffer holds, and reading the checksum a FRAME stored. -/
namespace Sys2Proof.Machine
open Sys2Proof

/-- A buffer in canonical form is determined by what it reads, so writing back a byte it holds gives the buffer itself. -/
theorem Memory.write_read_self {m : Memory} (hm : m.wf) (a : Nat) : m.write a (m.read a) = m := by
  refine Memory.ext_of_read (Memory.write_wf m a _ hm) hm fun x => ?_
  rw [Memory.read_write]
  split
  next hx => rw [hx]
  next => rfl

/-- Settles O32: the equations of BUFWR, the memory laws of its one write, and its row of the opcode map. -/
theorem bufwrStoresOneByte : Obligations.BufwrStoresOneByte :=
  ⟨fun s a b ha => ⟨execBufwr_eq b ha, fun x => s.buf.read_write a x b, fun hm hb => hb ▸ Memory.write_read_self hm a⟩,
    fun _ _ b ha => execBufwr_badAddress b ha,
    fun _ b ha => toNat_commandWord 0x05#8 b (Nat.lt_succ_of_le ha),
    fun _ ho => decode_bufwr_row ho⟩

/-- A FRAME of legal length leaves the checksum of its payload at addresses 0 to 3, most significant byte first (R135). -/
theorem CommandEffect.read_of_frame {s t : State} {n k : Nat} (h : CommandEffect s (.frame n) t)
    (hn : n ≤ s.params.maxLen) (hk : k < 4) :
    t.buf.read k = (bigEndian (crc s.params.crc (s.payload n))).getD k 0#8 := by
  cases h with
  | frame hn' =>
    have hread := s.buf.read_writeWord_offset 0 (crc s.params.crc (s.payload n)) hk
    rwa [Nat.zero_add] at hread
  | frameBadLength hlong => exact absurd hn hlong.not_ge

/-- Settles O33: the equations of BUFRD, which after a FRAME read the checksum it stored, and its row of the opcode
map. -/
theorem bufrdReturnsOneByte : Obligations.BufrdReturnsOneByte := by
  refine ⟨fun _ _ ha => execBufrd_eq ha, fun _ _ ha => execBufrd_badAddress ha, fun s t n a v hn ht hv => ?_,
    fun _ ha => toNat_commandWord 0x06#8 0#8 (Nat.lt_succ_of_le ha), fun w ho => ?_⟩
  · have hframe := exec_eq_next_iff.1 ht
    rw [← payload_eq_map] at hv
    obtain ⟨ha, hbyte⟩ : a < 4 ∧ v = (bigEndian (crc s.params.crc (s.payload n))).getD a 0#8 := by
      simp only [List.mem_cons, Prod.mk.injEq, List.not_mem_nil, or_false] at hv
      rcases hv with ⟨rfl, rfl⟩ | ⟨rfl, rfl⟩ | ⟨rfl, rfl⟩ | ⟨rfl, rfl⟩ <;> exact ⟨by decide, rfl⟩
    rw [hbyte, ← hframe.read_of_frame hn ha]
    exact execBufrd_eq (by rw [hframe.params_eq]; omega)
  · rw [decode_bufrd_row ho]
    simp [ifReservedZero, aField, bField]

end Sys2Proof.Machine
end

section
/-! The hex encoder and the text of a frame (R131 to R134): its parts, its length, and the receiver's reading of it
(R140). -/
namespace Sys2Proof.Machine
open Sys2Proof

theorem toNat_hexDigit_of_lt (c : HexCase) {v : BitVec 4} (h : v.toNat < 10) : (hexDigit c v).toNat = 0x30 + v.toNat := by
  rw [hexDigit, if_pos h]
  bv_omega

theorem toNat_hexDigit_of_ge (c : HexCase) {v : BitVec 4} (h : 10 ≤ v.toNat) :
    (hexDigit c v).toNat = (letterBase c).toNat + v.toNat - 10 := by
  rw [hexDigit, if_neg h.not_gt]
  cases c <;> rw [letterBase] <;> bv_omega

/-- A byte below 16 has the digit 0 for its high nibble (R133). -/
theorem head?_hexByte_of_le (c : HexCase) {b : Byte} (h : b.toNat ≤ 15) : (hexByte c b).head? = some 0x30#8 := by
  have hhigh : b.extractLsb' 4 4 = 0#4 := by
    rw [← BitVec.toNat_inj, BitVec.extractLsb'_toNat, Nat.shiftRight_eq_div_pow, Nat.div_eq_of_lt (by omega)]
    rfl
  rw [hexByte, hhigh]
  rfl

/-- Settles O35: a digit is looked up by its range, and a byte is its two digits. -/
theorem hexDigitsAndBytes : Obligations.HexDigitsAndBytes :=
  ⟨fun c _ hv => toNat_hexDigit_of_lt c hv, fun _ hv => ⟨toNat_hexDigit_of_ge .upper hv, toNat_hexDigit_of_ge .lower hv⟩,
    fun _ _ => rfl, fun c _ hb => head?_hexByte_of_le c hb, by decide, by decide, by decide, by decide, by decide⟩

theorem length_frameText (P : Params) (D : List Byte) :
    (frameText P D).length = 2 * D.length + 6 + P.lineTerm.length := by
  simp only [frameText, openDelim, closeDelim, List.length_append, length_hexBytes, List.length_cons, List.length_nil]
  omega

/-- Settles O36: `frameText` puts the hex characters between the delimiters, two for each byte. -/
theorem frameTextAndItsLength : Obligations.FrameTextAndItsLength := by
  refine fun P D => ⟨?_, length_frameText P D, rfl⟩
  simp [frameText, openDelim, closeDelim, hexBytes_eq_flatMap]

/-- Between the delimiters stand the hex characters of the bytes framed. -/
theorem stripDelims_frameText (P : Params) (D : List Byte) : stripDelims P (frameText P D) = hexBytes P.hexCase D := by
  have hlen : (frameText P D).length - 3 - (3 + P.lineTerm.length) = (hexBytes P.hexCase D).length := by
    rw [length_frameText, length_hexBytes]
    omega
  rw [stripDelims, hlen]
  exact List.take_left

/-- The receiver's reading of a frame is the checksum of the payload, then the payload (R140). -/
theorem unhex_stripDelims_wireFrame (P : Params) (payload : List Byte) :
    unhex (stripDelims P (wireFrame P payload)) = some (bigEndian (crc P.crc payload) ++ payload) := by
  rw [wireFrame, stripDelims_frameText, unhex_hexBytes]

theorem exists_hexDigit_of_mem_flatMap_hexByte {c : HexCase} {D : List Byte} {ch : Byte}
    (h : ch ∈ D.flatMap (hexByte c)) : ∃ v, ch = hexDigit c v := by
  obtain ⟨b, -, hb⟩ := List.mem_flatMap.1 h
  exact (List.mem_pair.1 hb).elim (fun hhigh => ⟨_, hhigh⟩) (fun hlow => ⟨_, hlow⟩)

theorem wireFrame_of_crc_eq {P : Params} {payload : List Byte} {v : Word} (h : crc P.crc payload = v) :
    wireFrame P payload = frameText P (bigEndian v ++ payload) := by
  rw [wireFrame, h]

theorem crc_isoHdlc_nil : crc .isoHdlc [] = 0x00000000#32 := by decide

/-- The frame of no bytes carries the checksum 0, whose digits are the same in either case (R138). -/
theorem wireFrame_nil {P : Params} (h : P.crc = .isoHdlc) : wireFrame P [] =
    [0x7B#8, 0x7B#8, 0x7B#8, 0x30#8, 0x30#8, 0x30#8, 0x30#8, 0x30#8, 0x30#8, 0x30#8, 0x30#8, 0x7D#8, 0x7D#8, 0x7D#8] ++
      P.lineTerm := by
  rw [wireFrame_of_crc_eq (h ▸ crc_isoHdlc_nil)]
  rfl

/-- The checksums of R142's payloads, by running R81's rounds on the start value. -/
theorem crc_isoHdlc_workedPayloads : crc .isoHdlc [0x99#8, 0x04#8, 0x05#8] = 0x19856BE6#32 ∧
    crc .isoHdlc [0x47#8, 0x50#8, 0x49#8, 0x4F#8, 0x15#8] = 0x828B7D88#32 ∧
    crc .isoHdlc [0x00#8, 0x0F#8, 0x10#8, 0xFF#8, 0xA5#8] = 0xB7FFEE2E#32 := by
  simp [crc, crcAcc, crcStep, crcMeet, crcBits, crcBit, crcFinal, CrcAlg.isoHdlc]

/-- Settles O43: each frame is the text of its checksum, evaluated once, and its payload. -/
theorem workedFrames : Obligations.WorkedFrames := by
  obtain ⟨hadvert, hgpio, hhex⟩ := crc_isoHdlc_workedPayloads
  refine ⟨crc_isoHdlc_nil, hadvert, hgpio, hhex, wireFrame_nil rfl, ?_, ?_, ?_, ?_⟩
  · rw [wireFrame_of_crc_eq hadvert]; decide
  · rw [wireFrame_of_crc_eq hgpio]; decide
  · rw [wireFrame_of_crc_eq hhex]; decide
  · rw [wireFrame_of_crc_eq hgpio]; decide

end Sys2Proof.Machine
end

section
/-! FRAME as one state update (R135): what it stores and sends is a function of the build and the payload, and it leaves
the payload itself. -/
namespace Sys2Proof.Machine
open Sys2Proof

/-- The state after a FRAME of legal length `n` (R135). -/
def State.framed (s : State) (n : Nat) : State :=
  (((s.withAcc (crcAcc s.params.crc (s.payload n))).withBuf (s.checksummedBuf n)).send
    (wireFrame s.params (s.payload n))).answer 0#4 0#32

@[simp] theorem State.framed_params (s : State) (n : Nat) : (s.framed n).params = s.params := rfl

@[simp] theorem State.framed_acc (s : State) (n : Nat) : (s.framed n).acc = crcAcc s.params.crc (s.payload n) := rfl

@[simp] theorem State.framed_buf (s : State) (n : Nat) :
    (s.framed n).buf = s.buf.writeWord 0 (crc s.params.crc (s.payload n)) := rfl

@[simp] theorem State.framed_tx (s : State) (n : Nat) :
    (s.framed n).tx = s.tx ++ wireFrame s.params (s.payload n) := rfl

theorem exec_frame {s : State} {n : Nat} (hn : n ≤ s.params.maxLen) : exec (.frame n) s = .next (s.framed n) :=
  (CommandEffect.frame hn).exec_eq

/-- The payload stands above the checksum that FRAME stores, so FRAME leaves it (R135, R139). -/
@[simp] theorem State.framed_payload (s : State) (n m : Nat) : (s.framed n).payload m = s.payload m :=
  Memory.readBytes_congr _ _ _ _ fun x hx _ => read_checksummedBuf s n x hx

/-- A word stored a second time changes no byte. -/
theorem Memory.read_writeWord_writeWord (m : Memory) (a x : Nat) (v : Word) :
    ((m.writeWord a v).writeWord a v).read x = (m.writeWord a v).read x := by
  simp only [Memory.read_writeWord]
  split <;> rfl

/-- Settles O38: the CKRD finalises the `ACC` that the FRAME left, which is the `crc_acc` of the payload. -/
theorem ckrdAfterFrameReturnsItsChecksum : Obligations.CkrdAfterFrameReturnsItsChecksum := by
  intro s n hn
  rw [← payload_eq_map]
  exact ⟨s.framed n, _, exec_frame hn, execCkrd_eq _, rfl, rfl, rfl, Memory.readBytes_writeWord _ _ _, rfl⟩

/-- Settles O39: at length 0 the payload is empty and its checksum 0; `MAXLEN` is the largest length FRAME takes. -/
theorem smallestAndLargestFrame : Obligations.SmallestAndLargestFrame := by
  refine ⟨fun s hcrc => ?_, fun s => ?_, fun s => execFrame_badLength (Nat.lt_succ_self _)⟩
  · have hpayload : s.payload 0 = [] := rfl
    refine ⟨_, exec_frame (Nat.zero_le _), rfl, ?_, ?_, ?_⟩
    · rw [State.framed_acc, hcrc, hpayload]
      rfl
    · rw [State.framed_buf, Memory.readBytes_writeWord, hcrc, hpayload, crc_isoHdlc_nil]
      rfl
    · rw [State.framed_tx, hpayload, wireFrame_nil hcrc]
  · exact ⟨_, exec_frame le_rfl, rfl, rfl, Nat.add_comm _ _⟩

/-- Settles O40: `State.framed` writes what FRAME sends and stores as functions of the build and the payload, and both
are the same after it. -/
theorem frameDependsOnThePayloadOnly : Obligations.FrameDependsOnThePayloadOnly := by
  refine ⟨fun s s' n hparams hn hbytes => ?_, fun s n hn => ?_⟩
  · have hpayload : s'.payload n = s.payload n := Memory.readBytes_congr _ _ _ _ hbytes
    refine ⟨_, _, wireFrame s.params (s.payload n), exec_frame hn, exec_frame (hparams ▸ hn), rfl, ?_, ?_, ?_⟩
    · rw [State.framed_tx, hparams, hpayload]
    · simp only [State.framed_acc, hparams, hpayload]
    · simp only [State.framed_buf, Memory.readBytes_writeWord, hparams, hpayload]
  · refine ⟨_, (s.framed n).framed n, wireFrame s.params (s.payload n), exec_frame hn, exec_frame hn, rfl, ?_, ?_,
      fun x => ?_⟩
    · rw [State.framed_tx, State.framed_params, State.framed_payload]
    · simp only [State.framed_acc, State.framed_params, State.framed_payload]
    · rw [State.framed_buf, State.framed_params, State.framed_payload]
      exact Memory.read_writeWord_writeWord ..

/-- Settles O41: the frame that FRAME sends is read back (`unhex_stripDelims_wireFrame`), and a hex character is a digit,
which is never a brace or the line terminator. -/
theorem framingRoundTrip : Obligations.FramingRoundTrip := by
  refine ⟨fun s n hn => ?_, fun c D ch hch => ?_⟩
  · rw [← payload_eq_map]
    exact ⟨_, _, exec_frame hn, rfl, unhex_stripDelims_wireFrame _ _⟩
  · obtain ⟨v, rfl⟩ := exists_hexDigit_of_mem_flatMap_hexByte hch
    exact hexDigit_ne c v

end Sys2Proof.Machine
end

section
/-! The input sampler (R154): the mask holds the levels of the lines, line 0 in the least significant bit. -/
namespace Sys2Proof.Machine
open Sys2Proof

theorem lineBits_cons (level : Bool) (lines : List Bool) :
    lineBits (level :: lines) = Nat.bit level (lineBits lines) := by
  rw [lineBits, Nat.bit_val, Nat.add_comm]

/-- A line past the last one counts as low, so this holds for any number of lines. -/
@[simp] theorem testBit_lineBits (lines : List Bool) (i : Nat) : (lineBits lines).testBit i = lines.getD i false := by
  induction lines generalizing i with
  | nil => exact Nat.zero_testBit i
  | cons level rest ih =>
    rw [lineBits_cons]
    cases i with
    | zero => exact Nat.testBit_bit_zero level _
    | succ i => rw [Nat.testBit_bit_succ, ih, List.getD_cons_succ]

/-- Settles O57: the mask keeps the low eight bits of `lineBits`, which are the levels. -/
theorem sampleMaskBits : Obligations.SampleMaskBits := by
  refine ⟨fun lines _ i hi => ?_, by decide⟩
  simp only [sampleMask, BitVec.getLsbD_ofNat, hi, decide_true, Bool.true_and, testBit_lineBits]

end Sys2Proof.Machine
end

section
/-! The response ports are outputs only (R33): no word reads them, so the response of a failed command is all that is left
of it and nothing after it depends on it (R184). -/
namespace Sys2Proof.Machine
open Sys2Proof

/-- No command reads the response ports, and each writes both, so what stood there before has no effect. -/
@[simp] theorem exec_answer (i : Instr) (s : State) (status : BitVec 4) (value : Word) :
    exec i (s.answer status value) = exec i s := by
  cases i <;> rfl

@[simp] theorem runWord_answer (w : Word) (s : State) (status : BitVec 4) (value : Word) :
    runWord w (s.answer status value) = runWord w s := by
  rcases hw : decode w with e | i
  · rw [runWord_error hw, runWord_error hw, State.answer_answer]
  · rw [runWord_ok hw, runWord_ok hw, exec_answer]

/-- A word that ends with an error writes its response and nothing else (R181). -/
theorem eq_answer_of_runWord_error {w : Word} {s t : State} (h : runWord w s = .next t) (he : t.rspStatus ≠ 0#4) :
    t = s.answer t.rspStatus 0#32 := by
  obtain ⟨u, hu, -, herror, -⟩ := exists_runWord w s
  obtain rfl : u = t := Host.Outcome.next.inj (hu.symm.trans h)
  exact herror he

/-- Settles O3: the failed word leaves a response, and no word reads the response ports. -/
theorem nextCommandRunsAsIfTheFailedOneWasNotSent : Obligations.NextCommandRunsAsIfTheFailedOneWasNotSent := by
  intro s t w h he
  have ht : t = s.answer t.rspStatus 0#32 := eq_answer_of_runWord_error h he
  refine ⟨ht, fun w' => ?_⟩
  rw [ht, runWord_answer]

end Sys2Proof.Machine
end

section
/-! The state after reset (R210): the timers are the build's, each with the deadline given for it, and the buffer reads as
the bytes given for it. -/
namespace Sys2Proof.Machine
open Sys2Proof

/-- A timer of the build starts at the deadline given for it, before its first check. -/
theorem State.getElem?_launch_timers {P : Params} {d : LaunchInput} {t : Nat} {I next : Word}
    (hI : P.intervals[t]? = some I) (hnext : d.nexts[t]? = some next) :
    (State.launch P d).timers[t]? = some { next := next, interval := I, fff := true } := by
  rw [State.launch_timers, getElem?_launchTimers, hI, Nat.zero_add, List.getD_eq_getElem?_getD, hnext]
  rfl

/-- An address inside the buffer reads as the byte given for it. -/
theorem State.read_launch_buf {P : Params} {d : LaunchInput} {a : Nat} {b : Byte} (hsize : d.bytes.length ≤ P.bufSize)
    (hb : d.bytes[a]? = some b) : (State.launch P d).buf.read a = b := by
  obtain ⟨ha, -⟩ := List.getElem?_eq_some_iff.1 hb
  rw [State.launch_buf, List.take_of_length_le hsize, Memory.read_writeBytes, if_pos ⟨a.zero_le, by omega⟩,
    Nat.sub_zero, List.getD_eq_getElem?_getD, hb, Option.getD_some]

/-- Settles O52: each content is read off the launch state, the timers and the buffer by the lemmas above. -/
theorem resetValues : Obligations.ResetValues := by
  intro P d _ hbytes
  refine ⟨length_launchTimers d.nexts P.intervals 0, fun t I next => State.getElem?_launch_timers, fun hcrc => ?_,
    State.launch_tx P d, fun a b => State.read_launch_buf hbytes.le⟩
  rw [State.launch_acc, hcrc]
  rfl

end Sys2Proof.Machine
end

section
/-! The round trip of the encoding (R60 to R68): decoding and encoding undo each other, and the words in numbers. -/
namespace Sys2Proof

/-- Settles O8: the decoder reads the fields that the encoding put in the word (`decode_encode`). -/
theorem decodeOfEncodeIsTheCommand : Obligations.DecodeOfEncodeIsTheCommand := fun _ => decode_encode

/-- Settles O9: the operands are fields of the word, and its other fields are the row's constants. -/
theorem encodeOfDecodeIsTheWord : Obligations.EncodeOfDecodeIsTheWord :=
  fun _ _ h => ⟨wellFormed_of_decode h, encode_of_decode h⟩

/-- Settles O10: a command's word is the sum of its fields, each at its place (`toNat_commandWord`). -/
theorem assembledWordsAreSums : Obligations.AssembledWordsAreSums := by
  refine ⟨rfl, fun b => toNat_commandWord 0x02#8 b (by decide), rfl, fun x hx => ?_⟩
  have hA : x < 65536 := Nat.lt_succ_of_le hx
  exact ⟨toNat_commandWord 0x04#8 0#8 hA, fun b => toNat_commandWord 0x05#8 b hA, toNat_commandWord 0x06#8 0#8 hA,
    toNat_commandWord 0x07#8 0#8 hA⟩

/-- Settles O11: each word is the encoding of its command. -/
theorem writtenOutWordsDecode : Obligations.WrittenOutWordsDecode :=
  ⟨decode_encode (i := .ckinit) rfl, decode_encode (i := .ckbyte 0xFF#8) rfl, decode_encode (i := .ckrd) rfl,
    decode_encode (i := .tdue 1) rfl, decode_encode (i := .bufwr 258 0x7E#8) rfl, decode_encode (i := .bufrd 258) rfl,
    decode_encode (i := .frame 26) rfl⟩

end Sys2Proof
end

section
/-! Every step keeps the invariant (R23, R25, R29, R32, R63): what each update of the state needs to keep it, then the
commands and the other steps. -/
namespace Sys2Proof.Machine
open Sys2Proof

theorem WholeFrames.nil (P : Params) : WholeFrames P [] := ⟨[], by simp, rfl⟩

theorem WholeFrames.append_wireFrame {P : Params} {bytes payload : List Byte} (h : WholeFrames P bytes)
    (hp : payload.length ≤ P.maxLen) : WholeFrames P (bytes ++ wireFrame P payload) := by
  obtain ⟨payloads, hlen, rfl⟩ := h
  exact ⟨payloads ++ [payload], List.forall_mem_append.2 ⟨hlen, List.forall_mem_singleton.2 hp⟩, by simp⟩

/-- Success may answer any value (R63). -/
theorem legalResponse_ok (v : Word) : LegalResponse 0#4 v := ⟨by decide, fun h => absurd rfl h⟩

theorem legalResponse_error (e : CmdError) : LegalResponse (errorCode e) 0#32 := ⟨(errorCode_range e).2, fun _ => rfl⟩

/-- Rearming a record keeps the intervals (R25). -/
theorem map_interval_set_rearm {ts : List Timer} {t : Nat} {T : Timer} (ht : ts[t]? = some T) (now : Word) :
    (ts.set t (T.rearm now)).map Timer.interval = ts.map Timer.interval := by
  obtain ⟨h, rfl⟩ := List.getElem?_eq_some_iff.1 ht
  rw [List.map_set, Timer.rearm_interval, ← List.map_set, List.set_getElem_self]

namespace Inv
variable {s : State}

theorem take (h : Inv s) (now : Word) (rest : List HostInput) : Inv (s.take now rest) := { h with }

theorem withAcc (h : Inv s) (v : Word) : Inv (s.withAcc v) := { h with }

theorem answer (h : Inv s) {status : BitVec 4} {v : Word} (hr : LegalResponse status v) : Inv (s.answer status v) :=
  { h with response := hr }

theorem answer_ok (h : Inv s) (v : Word) : Inv (s.answer 0#4 v) := h.answer (legalResponse_ok v)

theorem answer_error (h : Inv s) (e : CmdError) : Inv (s.answer (errorCode e) 0#32) := h.answer (legalResponse_error e)

theorem rearm (h : Inv s) {t : Nat} {T : Timer} (ht : s.timers[t]? = some T) (now : Word) :
    Inv (s.setTimer t (T.rearm now)) :=
  { h with intervals := (map_interval_set_rearm ht now).trans h.intervals }

theorem write (h : Inv s) {a : Nat} (b : Byte) (ha : a < s.params.maxLen + 4) : Inv (s.withBuf (s.buf.write a b)) :=
  { h with
    canonical := Memory.write_wf _ _ _ h.canonical
    within := Memory.write_within _ _ _ _ h.within ha }

theorem writeWord (h : Inv s) (v : Word) : Inv (s.withBuf (s.buf.writeWord 0 v)) :=
  { h with
    canonical := Memory.writeWord_wf _ _ _ h.canonical
    within := Memory.writeWord_within _ _ _ _ h.within (Nat.le_add_left ..) }

theorem send (h : Inv s) {payload : List Byte} (hp : payload.length ≤ s.params.maxLen) :
    Inv (s.send (wireFrame s.params payload)) :=
  { h with frames := h.frames.append_wireFrame hp }

end Inv

theorem CommandEffect.inv {i : Instr} {s s' : State} (h : CommandEffect s i s') (hs : Inv s) : Inv s' := by
  cases h with
  | ckinit => exact (hs.withAcc _).answer_ok _
  | ckbyte b => exact (hs.withAcc _).answer_ok _
  | ckrd => exact hs.answer_ok _
  | tdueBadTimer ht => exact hs.answer_error .badTimer
  | tdueNotDue ht hd => exact hs.answer_ok _
  | tdueDue ht hd => exact (hs.rearm ht _).answer_ok _
  | bufwr b ha => exact (hs.write b ha).answer_ok _
  | bufwrBadAddress b ha => exact hs.answer_error .badAddress
  | bufrd ha => exact hs.answer_ok _
  | bufrdBadAddress ha => exact hs.answer_error .badAddress
  | frame hn => exact (((hs.withAcc _).writeWord _).send (by simpa using hn)).answer_ok _
  | frameBadLength hn => exact hs.answer_error .badLength

/-- The launch states meet the invariant (R212). -/
theorem inv_launch {P : Params} (hP : P.Ok) (d : LaunchInput) : Inv (State.launch P d) where
  build := hP
  intervals := map_interval_launchTimers _ _ _
  canonical := (launch_buf_wf P d).1
  within := (launch_buf_wf P d).2
  frames := WholeFrames.nil P
  response := legalResponse_ok 0#32

/-- Settles O49: an idle step changes nothing, a reset launches, an error only answers, and each command is made of updates
that keep the invariant. -/
theorem everyStepKeepsTheInvariant : Obligations.EveryStepKeepsTheInvariant := by
  intro s s' hs h
  cases stepEffect_of_step h with
  | idle hp => exact hs
  | @reset d rest hp => exact (inv_launch hs.build d).take s.now rest
  | badWord hp hw => exact (hs.take _ _).answer_error _
  | command hp hw hi => exact hi.inv (hs.take _ _)

/-- Settles O50: `State.reset` is the launch state of the default build. -/
theorem launchStatesMeetTheInvariant : Obligations.LaunchStatesMeetTheInvariant :=
  ⟨fun _ d hP => inv_launch hP d, inv_launch (by decide) _⟩

end Sys2Proof.Machine
end

section
/-! What holds of every step (R10, R33, R180, R200, R210, R223): it answers a next state, runs the word it takes, and
changes neither the build nor, unless a TDUE is due or the reset port is asserted, the timer records. -/
namespace Sys2Proof.Machine
open Sys2Proof

theorem step_of_decode {s : State} {w now : Word} {rest : List HostInput} {i : Instr}
    (hp : s.pending = .command w now :: rest) (hw : decode w = .ok i) : step s = exec i (s.take now rest) := by
  rw [step_command hp, runWord_ok hw]

/-- Settles O1: the word is taken from the port, decoded, and run. -/
theorem stepRunsTheDecodedCommand : Obligations.StepRunsTheDecodedCommand := fun _ _ _ _ _ => step_of_decode

theorem decode_of_decodeTableWord {w : Nat} {i : Instr} (h : decodeTableWord 32 w = some i) :
    decode (tableWord 32 w) = .ok i := by
  rw [decodeTableWord, if_pos le_rfl] at h
  rcases hd : decode (tableWord 32 w) with e | j
  · simp [hd] at h
  · simpa [hd] using h

/-- Settles O56: the placed word is the first input, and taking it at the level of the `now` port gives the state back. -/
theorem placedWordRunsNext : Obligations.PlacedWordRunsNext :=
  fun s w _ h => step_of_decode (s := s.withFetchWord 32 w) rfl (decode_of_decodeTableWord h)

/-- Settles O55: with no input a step answers the state itself. -/
theorem idleKeepsAllState : Obligations.IdleKeepsAllState := fun _ => step_idle

/-- Settles O53: the reset port launches the build anew, and what is the host's stays. -/
theorem resetPortRelaunches : Obligations.ResetPortRelaunches := fun _ _ _ => step_reset

theorem step_next (s : State) : ∃ t, step s = .next t := by
  rcases hp : s.pending with _ | ⟨⟨w, now⟩ | d, rest⟩
  · exact ⟨s, step_idle hp⟩
  · obtain ⟨t, ht, -⟩ := exists_runWord w (s.take now rest)
    exact ⟨t, (step_command hp).trans ht⟩
  · exact ⟨_, step_reset hp⟩

/-- Settles O46: every command ends with a response, and every input is a command, an error or a reset. -/
theorem everyStepAnswersANextState : Obligations.EveryStepAnswersANextState := ⟨exec_next, step_next⟩

/-- Settles O48, by induction on the number of steps from `step_params`. -/
theorem parametersNeverChange : Obligations.ParametersNeverChange := by
  intro k
  induction k with
  | zero =>
    intro s s' h
    obtain rfl := Host.Outcome.next.inj h
    rfl
  | succ k ih =>
    intro s s' h
    obtain ⟨u, hu, hr⟩ := runSteps_succ_eq_next h
    exact (ih u s' hr).trans (step_params hu)

/-- The outcome of a command that is no TDUE is the same at every level of the `now` port, but for that level. -/
theorem CommandEffect.take_now {i : Instr} {s t : State} (h : CommandEffect s i t) (hi : ∀ u, i ≠ .tdue u) (now : Word) :
    CommandEffect (s.take now s.pending) i (t.take now s.pending) := by
  cases h with
  | ckinit => exact .ckinit
  | ckbyte b => exact .ckbyte b
  | ckrd => exact .ckrd
  | @tdueBadTimer u ht => exact absurd rfl (hi u)
  | @tdueNotDue u T ht hd => exact absurd rfl (hi u)
  | @tdueDue u T ht hd => exact absurd rfl (hi u)
  | bufwr b ha => exact .bufwr b ha
  | bufwrBadAddress b ha => exact .bufwrBadAddress b ha
  | bufrd ha => exact .bufrd ha
  | bufrdBadAddress ha => exact .bufrdBadAddress ha
  | frame hn => exact .frame hn
  | frameBadLength hn => exact .frameBadLength hn

/-- Settles O47: the effects of the other commands do not name the tick value. -/
theorem onlyTdueReadsTheClock : Obligations.OnlyTdueReadsTheClock := by
  intro i s t now hi h
  have he : CommandEffect s i t := exec_eq_next_iff.1 h
  have hpending : t.take now s.pending = { t with now := now } := by rw [State.take, ← he.pending_eq]
  exact hpending ▸ (he.take_now hi now).exec_eq

/-- A command writes at most one timer record, and does so as a due TDUE of it (R23, R101). -/
theorem CommandEffect.timers_cases {i : Instr} {s s' : State} (h : CommandEffect s i s') : s'.timers = s.timers ∨
    ∃ t T, i = .tdue t ∧ s.timers[t]? = some T ∧ s'.timers = s.timers.set t (T.rearm s.now) := by
  cases h with
  | @tdueDue t T ht hd => exact .inr ⟨t, T, rfl, ht, rfl⟩
  | _ => exact .inl rfl

theorem step_timers_cases {s s' : State} (h : step s = .next s')
    (hr : ∀ (d : LaunchInput) (rest : List HostInput), s.pending ≠ .reset d :: rest) : s'.timers = s.timers ∨
    ∃ w now rest t T, s.pending = .command w now :: rest ∧ decode w = .ok (.tdue t) ∧ s.timers[t]? = some T ∧
      s'.timers = s.timers.set t (T.rearm now) := by
  cases stepEffect_of_step h with
  | idle hp => exact .inl rfl
  | @reset d rest hp => exact absurd hp (hr d rest)
  | badWord hp hw => exact .inl rfl
  | @command w now rest i _ hp hw hi =>
    obtain hsame | ⟨t, T, rfl, ht, hset⟩ := hi.timers_cases
    · exact .inl hsame
    · exact .inr ⟨w, now, rest, t, T, hp, hw, ht, hset⟩

/-- A step that is no reset keeps the intervals (R25). -/
theorem step_map_interval {s s' : State} (h : step s = .next s')
    (hr : ∀ (d : LaunchInput) (rest : List HostInput), s.pending ≠ .reset d :: rest) :
    s'.timers.map Timer.interval = s.timers.map Timer.interval := by
  obtain hsame | ⟨-, now, -, t, T, -, -, hT, hset⟩ := step_timers_cases h hr
  · rw [hsame]
  · rw [hset, map_interval_set_rearm hT]

/-- A step that is no reset leaves a record, or takes a TDUE of it and rearms it (R100). -/
theorem step_record_cases {s s' : State} (h : step s = .next s')
    (hr : ∀ (d : LaunchInput) (rest : List HostInput), s.pending ≠ .reset d :: rest) {t : Nat} {T T' : Timer}
    (hT : s.timers[t]? = some T) (hT' : s'.timers[t]? = some T') :
    T' = T ∨ ∃ w now rest, s.pending = .command w now :: rest ∧ decode w = .ok (.tdue t) ∧ T' = T.rearm now := by
  obtain hsame | ⟨w, now, rest, u, U, hp, hw, hU, hset⟩ := step_timers_cases h hr
  · rw [hsame] at hT'
    exact .inl (Option.some.inj (hT'.symm.trans hT))
  · rw [hset] at hT'
    by_cases hut : u = t
    · subst hut
      obtain rfl : T = U := Option.some.inj (hT.symm.trans hU)
      exact .inr ⟨w, now, rest, hp, hw, Option.some.inj (hT'.symm.trans (State.getElem?_setTimer_self hT _))⟩
    · rw [List.getElem?_set_ne hut] at hT'
      exact .inl (Option.some.inj (hT'.symm.trans hT))

/-- Settles O30: a record stays, or its own TDUE rearms it, which clears `fff` and keeps the interval. -/
theorem timerRecordsChangeByTheirOwnCheckOnly : Obligations.TimerRecordsChangeByTheirOwnCheckOnly := by
  refine fun s s' h hr => ⟨step_map_interval h hr, fun t T T' hT hT' => ?_⟩
  obtain rfl | ⟨w, now, rest, hp, hw, rfl⟩ := step_record_cases h hr hT hT'
  · exact ⟨id, fun hne => absurd rfl hne⟩
  · exact ⟨fun _ => rfl, fun _ => ⟨w, now, rest, hp, hw, rfl⟩⟩

end Sys2Proof.Machine
end

section
/-! The launch states are the reset states (R210, R212): a launch state's own deadlines and bytes are the unspecified
contents with which a reset gives it back. -/
namespace Sys2Proof.Machine
open Sys2Proof

theorem launch_launch {P : Params} (hP : P.Ok) (d : LaunchInput) : Launch (State.launch P d) :=
  ⟨hP, map_interval_launchTimers _ _ _, fun _ => fff_launchTimers, rfl, rfl, launch_buf_wf P d⟩

/-- What reset would have to leave unspecified to give the state's timers and buffer. -/
def State.launchInput (s : State) : LaunchInput :=
  { nexts := s.timers.map Timer.next, bytes := s.buf.readBytes 0 s.bufSize }

/-- Timers before their first check are those that reset gives for their deadlines and intervals. -/
theorem launchTimers_eq_self {ts : List Timer} (h : ∀ T ∈ ts, T.fff = true) :
    launchTimers (ts.map Timer.next) 0 (ts.map Timer.interval) = ts := by
  apply List.ext_getElem?
  intro t
  rw [getElem?_launchTimers, List.getElem?_map, Nat.zero_add, List.getD_eq_getElem?_getD, List.getElem?_map]
  rcases hT : ts[t]? with _ | T
  · rfl
  · have hf : T.fff = true := h T (List.mem_of_getElem? hT)
    simp [← hf]

/-- A buffer in canonical form is what writing all its bytes into an empty one gives. -/
theorem Memory.writeBytes_readBytes_eq_self {m : Memory} {size : Nat} (hm : m.wf) (hsize : m.Within size) :
    Memory.writeBytes [] 0 (m.readBytes 0 size) = m := by
  refine Memory.ext_of_read (Memory.writeBytes_wf _ _ _ Memory.wf_nil) hm fun a => ?_
  rw [Memory.read_writeBytes, Memory.length_readBytes]
  split
  next ha => simp [Memory.readBytes_eq_map, List.getElem?_range (show a < size by omega)]
  next ha => exact (m.read_of_not_listed a fun c hc hca => ha ⟨a.zero_le, by have := hsize c hc; omega⟩).symm

theorem Launch.eq_launch {s : State} (h : Launch s) : s = { State.launch s.params s.launchInput with
    now := s.now, rspStatus := s.rspStatus, rspValue := s.rspValue, pending := s.pending } := by
  obtain ⟨-, hintervals, hfff, hacc, htx, hwf, hwithin⟩ := h
  have htimers : (State.launch s.params s.launchInput).timers = s.timers := by
    rw [State.launch_timers, ← hintervals]
    exact launchTimers_eq_self hfff
  have hbuf : (State.launch s.params s.launchInput).buf = s.buf := by
    rw [State.launch_buf, State.launchInput, State.bufSize, List.take_of_length_le (Memory.length_readBytes _ _ _).le]
    exact Memory.writeBytes_readBytes_eq_self hwf hwithin
  simp only [State.launch_params, htimers, State.launch_acc, ← hacc, hbuf, State.launch_tx, ← htx]

/-- Settles O54: a reset of a launch state with its own deadlines and bytes gives it back, up to the ports. -/
theorem launchStatesAreTheResetStates : Obligations.LaunchStatesAreTheResetStates := by
  refine ⟨fun _ d hP => launch_launch hP d, fun s h => ⟨⟨s.launchInput, h.eq_launch⟩, fun hcrc => ?_⟩⟩
  obtain ⟨-, -, -, hacc, -⟩ := h
  rw [hacc, hcrc]
  rfl

end Sys2Proof.Machine
end

section
/-! The checksum (R80 to R88): the algorithms a build can have, the sum over a byte sequence, and the two commands without
an operand. -/
namespace Sys2Proof.Machine
open Sys2Proof

/-- Settles O17: the step function maps an accumulator to that of some byte sequence with one more byte, which is the same
for every sequence with that accumulator; and the final function likewise. Every such pair is an algorithm. -/
theorem everyAccumulatorChecksumIsABuild : Obligations.EveryAccumulatorChecksumIsABuild := by
  intro f acc hstep hfinal
  have hrep : ∀ s, acc (Function.invFun acc (acc s)) = acc s := fun s => Function.invFun_eq ⟨s, rfl⟩
  obtain ⟨alg, hinit, hs, hf⟩ := exists_crcAlg (acc []) (fun a b => acc (Function.invFun acc a ++ [b]))
    (fun a => f (Function.invFun acc a))
  have hacc : ∀ s, crcAcc alg s = acc s := by
    intro s
    induction s using List.reverseRecOn with
    | nil => exact hinit
    | append_singleton s b ih => rw [crcAcc_concat, ih, hs]; exact hstep _ _ b (hrep s)
  refine ⟨{ Params.default with crc := alg }, (by decide : Params.default.Ok), fun s => ⟨hacc s, ?_⟩⟩
  rw [crc, hacc, hf]
  exact hfinal _ _ (hrep s)

/-- Settles O18: the rounds are linear, and on the high bytes they only shift (`crcStep_lsbFirst`). -/
theorem crcStepByTableLookup : Obligations.CrcStepByTableLookup := fun _ _ acc b h => crcStep_lsbFirst h acc b

/-- R83's check value, by running R81's rounds on the start value. -/
theorem crc_isoHdlc_check : crc .isoHdlc [0x31#8, 0x32#8, 0x33#8, 0x34#8, 0x35#8, 0x36#8, 0x37#8, 0x38#8, 0x39#8] =
    0xCBF43926#32 := by
  simp [crc, crcAcc, crcStep, crcMeet, crcBits, crcBit, crcFinal, CrcAlg.isoHdlc]

/-- R83's checksums of one byte. -/
theorem crc_isoHdlc_singletons : crc .isoHdlc [0x00#8] = 0xD202EF8D#32 ∧ crc .isoHdlc [0xFF#8] = 0xFF000000#32 ∧
    crc .isoHdlc [0x61#8] = 0xE8B7BE43#32 := by
  decide

/-- R83's checksums of four bytes. -/
theorem crc_isoHdlc_fourBytes : crc .isoHdlc [0x00#8, 0x00#8, 0x00#8, 0x00#8] = 0x2144DF1C#32 ∧
    crc .isoHdlc [0xFF#8, 0xFF#8, 0xFF#8, 0xFF#8] = 0xFFFFFFFF#32 := by
  simp [crc, crcAcc, crcStep, crcMeet, crcBits, crcBit, crcFinal, CrcAlg.isoHdlc]

/-- Settles O16: the laws of the accumulation, and each listed checksum evaluated once. -/
theorem checksumOfAByteSequence : Obligations.ChecksumOfAByteSequence := by
  obtain ⟨hzero, hones, ha⟩ := crc_isoHdlc_singletons
  obtain ⟨hzeros, hones4⟩ := crc_isoHdlc_fourBytes
  obtain ⟨hsignature, -, -⟩ := crc_isoHdlc_workedPayloads
  exact ⟨fun _ => rfl, crcAcc_concat, fun _ _ => rfl, fun _ _ acc h => crcFinal_xor h acc, rfl, crcFinal_isoHdlc,
    crc_isoHdlc_check, crc_isoHdlc_nil, hzero, hones, ha, hzeros, hones4, hsignature⟩

/-- The rows without an operand: both fields must be zero (R66). -/
theorem ifReservedZero_lowBits (w : Word) (i : Instr) : ifReservedZero (aField w == 0 && bField w == 0#8) i =
    if w.extractLsb' 0 24 = 0#24 then .ok i else .error .reservedField := by
  simp [ifReservedZero, low_bits_eq_zero_iff]

/-- Settles O12: the equation of CKINIT and its row of the opcode map. -/
theorem ckinitStartsANewChecksum : Obligations.CkinitStartsANewChecksum := by
  refine ⟨execCkinit_eq, fun s hcrc => ?_, rfl, fun w hw => ?_⟩
  · have hinit : s.params.crc.init = 0xFFFFFFFF#32 := hcrc ▸ rfl
    exact hinit ▸ execCkinit_eq s
  · rw [decode_ckinit_row hw, ifReservedZero_lowBits]

theorem execCkrd_isoHdlc {s : State} (h : s.params.crc = .isoHdlc) :
    execCkrd s = .next (s.answer 0#4 (s.acc ^^^ 0xFFFFFFFF#32)) := by
  rw [execCkrd_eq, h, crcFinal_isoHdlc]

/-- In the default algorithm CKRD answers the same in every state with the same `ACC`. -/
theorem execCkrd_isoHdlc_of_acc {s : State} {v : Word} (h : s.params.crc = .isoHdlc) (hacc : s.acc = v) :
    execCkrd s = .next (s.answer 0#4 (v ^^^ 0xFFFFFFFF#32)) := by
  rw [execCkrd_isoHdlc h, hacc]

/-- At its start value the default algorithm's accumulator finalises to 0, the checksum of no bytes (R86). -/
theorem execCkrd_isoHdlc_of_init {s : State} (h : s.params.crc = .isoHdlc) (hacc : s.acc = s.params.crc.init) :
    execCkrd s = .next (s.answer 0#4 0#32) :=
  execCkrd_isoHdlc_of_acc h (hacc.trans (congrArg CrcAlg.init h))

/-- Settles O14: the equation of CKRD, at `ACC` as CKINIT, reset and the example leave it, and its row of the opcode
map. -/
theorem ckrdReturnsTheFinalisedChecksum : Obligations.CkrdReturnsTheFinalisedChecksum := by
  refine ⟨execCkrd_eq, fun s => execCkrd_isoHdlc, fun s t hcrc h => ?_, fun P d hcrc => ?_, rfl, fun w hw => ?_,
    fun s => execCkrd_isoHdlc_of_acc⟩
  · cases exec_eq_next_iff.1 h
    exact execCkrd_isoHdlc_of_init hcrc rfl
  · exact execCkrd_isoHdlc_of_init hcrc rfl
  · rw [decode_ckrd_row hw, ifReservedZero_lowBits]

end Sys2Proof.Machine
end

section
/-! The due test as lateness (R108), and checks repeated at one tick value (R110). -/
namespace Sys2Proof.Machine
open Sys2Proof

/-- The tick value `e` ticks after the deadline lies in the window while `e` is below its size: past the end of the tick
space it has wrapped below the deadline. -/
theorem inWindow_add_iff (next : Word) {e : Nat} (he : e < 2 ^ 32) :
    InWindow next (next + BitVec.ofNat 32 e) ↔ e < windowEnd next - next.toNat := by
  have hnext : next.toNat < 2 ^ 32 := next.isLt
  rw [InWindow, BitVec.toNat_add, BitVec.toNat_ofNat, Nat.mod_eq_of_lt he]
  rcases lt_or_ge next.toNat (2 ^ 31) with hlow | hhigh
  · rw [windowEnd_low hlow]; omega
  · rw [windowEnd_high hhigh]; omega

theorem windowEnd_sub (next : Word) : windowEnd next - next.toNat =
    if next.toNat < 2 ^ 31 then 2 ^ 31 - next.toNat else 2 ^ 32 - next.toNat := by
  rw [windowEnd, apply_ite (· - next.toNat)]

/-- The window of the last deadline of the low half is that tick value alone. -/
theorem inWindow_lastLow_iff (now : Word) : InWindow 0x7FFFFFFF#32 now ↔ now = 0x7FFFFFFF#32 := by
  rw [inWindow_low_iff (by decide), ← BitVec.toNat_inj, BitVec.toNat_ofNat]
  omega

/-- The response to a check, by any condition that says when the tick value lies in the window. -/
theorem exists_exec_tdue_of_inWindow_iff {s : State} {t : Nat} {T : Timer} {p : Prop} [Decidable p]
    (hT : s.timers[t]? = some T) (hf : T.fff = false) (hp : InWindow T.next s.now ↔ p) :
    ∃ u, exec (.tdue t) s = .next u ∧ u.rspStatus = 0#4 ∧ u.rspValue = if p then 1#32 else 0#32 := by
  obtain ⟨u, hu, hstatus, hdue, hnot⟩ := exists_exec_tdue_inWindow hT hf
  refine ⟨u, hu, hstatus, ?_⟩
  by_cases h : p
  · rw [if_pos h]; exact hdue (hp.2 h)
  · rw [if_neg h]; exact hnot (mt hp.1 h)

/-- Settles O26: the window of the deadline, measured from the deadline. -/
theorem dueExactlyWhileLateWithinTheHalf : Obligations.DueExactlyWhileLateWithinTheHalf := by
  refine ⟨fun s t T e hT hf he hnow => ?_, fun s t T hT hf hnext => ?_⟩
  · exact exists_exec_tdue_of_inWindow_iff hT hf (by rw [hnow, inWindow_add_iff _ he, windowEnd_sub])
  · obtain ⟨u, hu, -, hvalue⟩ := exists_exec_tdue_of_inWindow_iff (p := s.now = 0x7FFFFFFF#32) hT hf
      (by rw [hnext, inWindow_lastLow_iff])
    exact ⟨u, hu, hvalue⟩

/-- Settles O28: the due check rearmed the record, at a distance of 0 ticks; with interval 0 the new deadline is the tick
value of that check. -/
theorem repeatedChecksAndZeroInterval : Obligations.RepeatedChecksAndZeroInterval := by
  intro s u t T hT h _ hv
  have hu := getElem?_of_exec_tdue_due hT h hv
  refine ⟨fun hpos hI s' hkept hnow => ?_, fun hzero s' hkept => ?_⟩
  · have hnot : (T.rearm s.now).isDue s'.now = false := by
      simpa [hnow] using T.not_isDue_rearm s.now hI (d := 0) hpos
    exact execTdue_notDue (hkept.trans hu) hnot
  · have hnext : (T.rearm s.now).next = s.now := by simp [hzero]
    exact hnext ▸ exists_exec_tdue_inWindow (hkept.trans hu) (T.rearm_fff s.now)

end Sys2Proof.Machine
end

section
/-! FRAME, completed (R135, R47): its update written out, its row of the opcode map, and the rule's example. -/
namespace Sys2Proof.Machine
open Sys2Proof

/-- `ACC` after a sequence, from its checksum: in the default algorithm the end undoes itself (R83). -/
theorem crcAcc_eq_of_crc_isoHdlc {bytes : List Byte} {v : Word} (h : crc .isoHdlc bytes = v) :
    crcAcc .isoHdlc bytes = v ^^^ 0xFFFFFFFF#32 := by
  rw [← h, crc, crcFinal_isoHdlc, BitVec.xor_assoc, BitVec.xor_self, BitVec.xor_zero]

/-- A FRAME in the default build, from the bytes of its payload and their checksum. -/
theorem exec_frame_default {s : State} {n : Nat} {payload : List Byte} {v : Word} (hs : s.params = Params.default)
    (hn : n ≤ 255) (hp : s.payload n = payload) (hv : crc .isoHdlc payload = v) :
    ∃ t, exec (.frame n) s = .next t ∧ t.acc = v ^^^ 0xFFFFFFFF#32 ∧ t.buf = s.buf.writeWord 0 v ∧
      t.tx = s.tx ++ wireFrame Params.default payload := by
  subst hp hv
  refine ⟨s.framed n, exec_frame (hs ▸ hn), ?_, ?_, ?_⟩
  · rw [State.framed_acc, hs]
    exact crcAcc_eq_of_crc_isoHdlc rfl
  · rw [State.framed_buf, hs]
    rfl
  · rw [State.framed_tx, hs]

/-- Settles O37: the update of FRAME, written out, with the payload byte by byte. -/
theorem frameChecksumsStoresAndSends : Obligations.FrameChecksumsStoresAndSends := by
  refine ⟨fun s n hn => ?_, fun s n => execFrame_badLength, fun n hn => ?_, fun w hw => ?_, fun s hs h4 h5 h6 h7 h8 => ?_⟩
  · rw [← payload_eq_map]
    refine ⟨fun hcrc => ?_, exec_frame hn⟩
    rw [hcrc]
    exact ⟨rfl, rfl⟩
  · exact toNat_commandWord 0x07#8 0#8 (Nat.lt_succ_of_le hn)
  · rw [decode_frame_row hw]
    simp [ifReservedZero, aField, bField]
  · obtain ⟨-, hcrc, -⟩ := crc_isoHdlc_workedPayloads
    obtain ⟨-, -, -, -, -, -, hframe, -⟩ := workedFrames
    have hpayload : s.payload 5 = [0x47#8, 0x50#8, 0x49#8, 0x4F#8, 0x15#8] := by
      simp [State.payload, prefixLen, Memory.readBytes, h4, h5, h6, h7, h8]
    obtain ⟨t, ht, hacc, hbuf, htx⟩ := exec_frame_default hs (by decide) hpayload hcrc
    rw [hframe] at htx
    refine ⟨t, ht, hacc, ?_, ?_, ?_, ?_, htx⟩
    · exact hbuf ▸ s.buf.read_writeWord_offset 0 _ (k := 0) (by decide)
    · exact hbuf ▸ s.buf.read_writeWord_offset 0 _ (k := 1) (by decide)
    · exact hbuf ▸ s.buf.read_writeWord_offset 0 _ (k := 2) (by decide)
    · exact hbuf ▸ s.buf.read_writeWord_offset 0 _ (k := 3) (by decide)

/-- Settles O42: FRAME stores the checksum of the payload, and leaves the payload. -/
theorem checksumBytesMatchTheBytesAfterThem : Obligations.ChecksumBytesMatchTheBytesAfterThem := by
  intro s n hn
  have hpayload : (s.framed n).buf.readBytes 4 n = s.buf.readBytes 4 n := s.framed_payload n n
  refine ⟨s.framed n, exec_frame hn, ?_, hpayload⟩
  rw [hpayload, State.framed_buf, Memory.readBytes_writeWord]
  rfl

end Sys2Proof.Machine
end

section
/-! What the commands leave unchanged (20_memory.md section 4, 40_checksum.md to 43_framer.md). -/
namespace Sys2Proof.Machine
open Sys2Proof

theorem CommandEffect.now_eq {i : Instr} {s s' : State} (h : CommandEffect s i s') : s'.now = s.now := by
  cases h <;> rfl

/-- Only BUFWR and FRAME write `BUF` (R30). -/
theorem CommandEffect.buf_eq {i : Instr} {s s' : State} (h : CommandEffect s i s') (hb : ∀ a b, i ≠ .bufwr a b)
    (hf : ∀ n, i ≠ .frame n) : s'.buf = s.buf := by
  cases h with
  | @bufwr a b ha => exact absurd rfl (hb a b)
  | @frame n hn => exact absurd rfl (hf n)
  | _ => rfl

/-- Only TDUE writes the timer records (R23). -/
theorem CommandEffect.timers_eq {i : Instr} {s s' : State} (h : CommandEffect s i s') (hi : ∀ t, i ≠ .tdue t) :
    s'.timers = s.timers := by
  obtain hsame | ⟨t, -, rfl, -⟩ := h.timers_cases
  · exact hsame
  · exact absurd rfl (hi t)

/-- Only CKINIT, CKBYTE and FRAME write `ACC` (R28). -/
theorem CommandEffect.acc_eq_self {i : Instr} {s s' : State} (h : CommandEffect s i s') (hi : restartsAcc i = false)
    (hb : ∀ b, i ≠ .ckbyte b) : s'.acc = s.acc := by
  cases h with
  | ckinit => cases hi
  | ckbyte b => exact absurd rfl (hb b)
  | frame hn => cases hi
  | _ => rfl

/-- Settles O44: each part of the state is written only by the commands that name it. -/
theorem nonStoringCommandsKeepBufferAndStream : Obligations.NonStoringCommandsKeepBufferAndStream := by
  intro s t i h hi
  have he : CommandEffect s i t := exec_eq_next_iff.1 h
  have hbufwr : ∀ a b, i ≠ .bufwr a b := by rintro a b rfl; simp at hi
  have hframe : ∀ n, i ≠ .frame n := by rintro n rfl; simp at hi
  refine ⟨fun x => by rw [he.buf_eq hbufwr hframe], he.tx_eq hframe, fun hacc => ?_, he.timers_eq, fun u x hu hx => ?_,
    he.params_eq, he.now_eq, he.pending_eq⟩
  · obtain rfl | ⟨u, rfl⟩ | ⟨a, rfl⟩ := hacc
    · exact he.acc_eq_self rfl nofun
    · exact he.acc_eq_self rfl nofun
    · exact he.acc_eq_self rfl nofun
  · exact he.timer_eq fun hix => hx (Instr.tdue.inj (hix.symm.trans hu))

/-- A byte that BUFWR is not given stays (R121). -/
theorem CommandEffect.read_of_bufwr {s s' : State} {a x : Nat} {b : Byte} (h : CommandEffect s (.bufwr a b) s')
    (hx : x ≠ a) : s'.buf.read x = s.buf.read x := by
  cases h with
  | bufwr _ ha => rw [State.answer_buf, State.withBuf_buf, Memory.read_write, if_neg hx]
  | bufwrBadAddress _ ha => rfl

/-- The bytes above the checksum stay over a FRAME (R135). -/
theorem CommandEffect.read_above_of_frame {s s' : State} {n x : Nat} (h : CommandEffect s (.frame n) s') (hx : 4 ≤ x) :
    s'.buf.read x = s.buf.read x := by
  cases h with
  | frame hn => exact read_checksummedBuf s n x hx
  | frameBadLength hn => rfl

/-- Settles O45: the two stores reach their own bytes only, and a command that fails writes nothing but its response. -/
theorem storingCommandsKeepOtherBytes : Obligations.StoringCommandsKeepOtherBytes := by
  refine ⟨fun s t a b h => ?_, fun s t n h => ?_⟩
  · have he : CommandEffect s (.bufwr a b) t := exec_eq_next_iff.1 h
    refine ⟨fun x => he.read_of_bufwr, fun ha x => ?_, he.acc_eq_self rfl nofun, he.tx_eq nofun, he.timers_eq nofun,
      he.params_eq, he.now_eq, he.pending_eq⟩
    obtain rfl := Host.Outcome.next.inj (h.symm.trans (execBufwr_badAddress b ha))
    rfl
  · have he : CommandEffect s (.frame n) t := exec_eq_next_iff.1 h
    refine ⟨fun x => he.read_above_of_frame, fun hn => ?_, he.timers_eq nofun, he.params_eq, he.now_eq, he.pending_eq⟩
    obtain rfl := Host.Outcome.next.inj (h.symm.trans (execFrame_badLength hn))
    exact ⟨fun _ => rfl, rfl, rfl⟩

end Sys2Proof.Machine
end

section
/-! The response value of each command that ends with status 0 (R63). -/
namespace Sys2Proof.Machine
open Sys2Proof

theorem CommandEffect.rspValue_eq_zero {i : Instr} {s s' : State} (h : CommandEffect s i s')
    (hi : i = .ckinit ∨ (∃ b, i = .ckbyte b) ∨ (∃ a b, i = .bufwr a b) ∨ ∃ n, i = .frame n) : s'.rspValue = 0#32 := by
  cases h with
  | ckrd => simp at hi
  | tdueDue ht hd => simp at hi
  | bufrd ha => simp at hi
  | _ => rfl

theorem CommandEffect.rspValue_of_ckrd {s s' : State} (h : CommandEffect s .ckrd s') :
    s'.rspValue = crcFinal s.params.crc s.acc := by
  cases h
  rfl

theorem CommandEffect.rspValue_of_tdue {s s' : State} {t : Nat} (h : CommandEffect s (.tdue t) s')
    (hok : s'.rspStatus = 0#4) : ∃ T : Timer, s.timers[t]? = some T ∧ s'.rspValue = dueValue (T.isDue s.now) := by
  cases h with
  | tdueBadTimer ht => cases hok
  | tdueNotDue ht hd => exact ⟨_, ht, by rw [hd]; rfl⟩
  | tdueDue ht hd => exact ⟨_, ht, by rw [hd]; rfl⟩

theorem CommandEffect.rspValue_of_bufrd {s s' : State} {a : Nat} (h : CommandEffect s (.bufrd a) s')
    (hok : s'.rspStatus = 0#4) : s'.rspValue = (s.buf.read a).setWidth 32 := by
  cases h with
  | bufrd ha => rfl
  | bufrdBadAddress ha => cases hok

/-- The due bit stands in bit 0 of the response value, over zeros. -/
theorem dueValue_bits (due : Bool) : (dueValue due).extractLsb' 1 31 = 0#31 ∧ (dueValue due).getLsbD 0 = due := by
  cases due <;> decide

/-- A byte that is zero-extended to a word stands in the word's low bits, over zeros. -/
theorem setWidth_byte_bits (b : Byte) :
    (b.setWidth 32).extractLsb' 8 24 = 0#24 ∧ (b.setWidth 32).extractLsb' 0 8 = b := by
  revert b
  decide

/-- Settles O4: an error answers the value 0, and the value of a command is that of its row. -/
theorem responseValueOfEachCommand : Obligations.ResponseValueOfEachCommand := by
  intro w s
  obtain ⟨t, ht, -, herror, hok⟩ := exists_runWord w s
  refine ⟨t, ht, fun he => by rw [herror he]; rfl, fun h0 => ?_⟩
  obtain ⟨i, hw, hi⟩ := hok h0
  have he : CommandEffect s i t := exec_eq_next_iff.1 hi
  refine ⟨i, hw, he.rspValue_eq_zero, ?_, ?_, ?_⟩
  · rintro rfl
    exact ⟨he.rspValue_of_ckrd, fun hcrc => by rw [he.rspValue_of_ckrd, hcrc, crcFinal_isoHdlc]⟩
  · rintro u rfl
    obtain ⟨T, hT, hv⟩ := he.rspValue_of_tdue h0
    obtain ⟨hzeros, hbit⟩ := dueValue_bits (T.isDue s.now)
    exact ⟨hv ▸ hzeros, T, hT, hv ▸ hbit⟩
  · rintro a rfl
    rw [he.rspValue_of_bufrd h0]
    exact setWidth_byte_bits _

end Sys2Proof.Machine
end

section
/-! The advertisement filter (R156) and the commands of the Advertisement Bridge (R155). -/
namespace Sys2Proof.Machine
open Sys2Proof

theorem forwards_iff (M : List Byte) : forwards M = true ↔
    2 < M.length ∧ M[0]? = some 0x99#8 ∧ M[1]? = some 0x04#8 ∧ M[2]? = some 0x05#8 := by
  match M with
  | [] => simp [forwards]
  | [_] => simp [forwards]
  | [_, _] => simp [forwards]
  | a :: b :: c :: rest => simp [forwards, signature]

theorem frame_notMem_fillFrom (bytes : List Byte) (n : Nat) : ∀ a, Instr.frame n ∉ fillFrom a bytes := by
  induction bytes with
  | nil => simp [fillFrom]
  | cons b bytes ih => simp [fillFrom, ih]

theorem advertPoll_of_forwards {maxLen : Nat} {M : List Byte} (hlen : M.length ≤ maxLen) (h : forwards M = true) :
    advertPoll maxLen (some M) = send M := by
  simp [advertPoll, hlen, h, send]

theorem advertPoll_of_not_forwards {maxLen : Nat} {M : List Byte} (hlen : M.length ≤ maxLen) (h : forwards M = false) :
    advertPoll maxLen (some M) = fill M := by
  simp [advertPoll, hlen, h]

theorem advertPoll_of_tooLong {maxLen : Nat} {M : List Byte} (hlen : maxLen < M.length) :
    advertPoll maxLen (some M) = [] := by
  simp [advertPoll, hlen.not_ge]

/-- Settles O58: the three cases of the bridge; a fill holds no FRAME. -/
theorem filterForwardsTheSignature : Obligations.FilterForwardsTheSignature := by
  refine ⟨forwards_iff, fun _ _ => advertPoll_of_forwards, fun _ _ => advertPoll_of_tooLong, fun maxLen M n h => ?_,
    fun _ => rfl⟩
  rcases le_or_gt M.length maxLen with hlen | hlen
  · rw [advertPoll_of_not_forwards hlen h]
    exact frame_notMem_fillFrom M n prefixLen
  · rw [advertPoll_of_tooLong hlen]
    exact List.not_mem_nil

end Sys2Proof.Machine
end
